-- ==== Sys2Proof/Word.lean ====
section
/-! DEFINITION. The word types of the micmac machine (00_scope.md R7, R8). -/

namespace Sys2Proof

/-- A memory cell, an instruction word, a 16-bit register (R7: WORD_BITS, AC_BITS, SP_BITS, PC_BITS). -/
abbrev Word := BitVec 16

/-- The standard-form operand, 12 bits (R8). -/
abbrev Operand12 := BitVec 12

/-- The stack-form operand, and an opcode byte: 8 bits (R8, R15). -/
abbrev Byte := BitVec 8

end Sys2Proof
end

