-- ==== Sys2Proof/Config.lean ====
section
/-! DEFINITION. The parameters of 00_scope.md R7, and the two values the spec leaves open: the base words beyond the
loaded image (20_memory.md R51) and the state a faulted step leaves (10_state.md R44). -/

namespace Sys2Proof.Config

/-- `MEM_SIZE`: number of memory cells, addresses 0..4095 (R7). -/
def memSize : Nat := 4096

/-- `WORD_MAX`: largest value a memory cell holds (R7). -/
def wordMax : Nat := 65535

/-- `STACK_SIZE`: words reserved for the stack (R7). -/
def stackSize : Nat := 2048

/-- `STACK_FLOOR`: lowest legal `sp` after a checked decrement (R7). -/
def stackFloor : Nat := memSize - stackSize

/-- `STACK_EMPTY`: the `sp` of the empty stack, highest legal `sp` after a checked increment (R7). -/
def stackEmpty : Nat := memSize

/-- `DEPTH_MAX`: the call-depth ceiling (R7). -/
def depthMax : Nat := 100

/-- `PC_RESET`: `pc` after reset (R7). -/
def pcReset : Word := 0

/-- The base word at an address beyond the loaded image. The spec makes these words part of the launch parameter and
fixes no value for them (R51, D10), so the model leaves each of them free. Log 2. -/
opaque basePad : Nat → Word

/-- The part of the state that 10_state.md R44 leaves unspecified after a step that faulted: every register and every
memory cell other than the fault record. `cells` lists contents of the overlay. -/
structure Volatile where
  pc : Word
  sp : Word
  ac : Word
  acv : Bool
  depth : BitVec 7
  ended : Bool
  ir : Word
  pcb : Word
  cells : List (Nat × Word)
  deriving DecidableEq, Repr, Inhabited

/-- What the volatile part holds after a fault, a free value: R44 lets it be anything, and no claim may depend on it.
It is applied to the volatile part and the base as they were when the step faulted, because R133 makes the result of
every step a function of the state before it and of the base. Log 4. -/
opaque afterFault : Volatile → List Word → Volatile

end Sys2Proof.Config
end

