-- ==== Sys2Proof/Syntax.lean ====
section
/-! DEFINITION. The instructions: one constructor per row of the opcode table (30_encoding.md R85), in the table's order. -/

namespace Sys2Proof

/-- The 23 operations of R85. A constructor keeps every operand bit of the word, those an operation ignores too (R96),
so that a word and its instruction determine each other. -/
inductive Instr where
  /-- LODD: load direct (R150). -/
  | lodd (arg : Operand12)
  /-- STOD: store direct (R151). -/
  | stod (arg : Operand12)
  /-- ADDD: add direct (R153). -/
  | addd (arg : Operand12)
  /-- SUBD: subtract direct (R154). -/
  | subd (arg : Operand12)
  /-- JPOS: jump if the accumulator is zero or positive (R164). -/
  | jpos (arg : Operand12)
  /-- JZER: jump if the accumulator is zero (R161). -/
  | jzer (arg : Operand12)
  /-- JUMP: unconditional jump; a self-jump halts (R160). -/
  | jump (arg : Operand12)
  /-- LOCO: load constant (R152). -/
  | loco (arg : Operand12)
  /-- LODL: load local (R171). -/
  | lodl (arg : Operand12)
  /-- STOL: store local (R172). -/
  | stol (arg : Operand12)
  /-- ADDL: add local (R173). -/
  | addl (arg : Operand12)
  /-- SUBL: subtract local (R174). -/
  | subl (arg : Operand12)
  /-- JNEG: jump if the accumulator is negative (R163). -/
  | jneg (arg : Operand12)
  /-- JNZE: jump if the accumulator is not zero (R162). -/
  | jnze (arg : Operand12)
  /-- CALL: call subroutine (R180). -/
  | call (arg : Operand12)
  /-- PSHI: push the word at a low address (R192). -/
  | pshi (arg : Byte)
  /-- POPI: pop into a low address (R193). -/
  | popi (arg : Byte)
  /-- PUSH: push the accumulator (R190); the operand is ignored. -/
  | push (ignored : Byte)
  /-- POP: pop into the accumulator (R191); the operand is ignored. -/
  | pop (ignored : Byte)
  /-- RETN: return from subroutine (R181); the operand is ignored. -/
  | retn (ignored : Byte)
  /-- SWAP: exchange the accumulator and the stack pointer (R194); the operand is ignored. -/
  | swap (ignored : Byte)
  /-- INSP: increment the stack pointer (R195). -/
  | insp (arg : Byte)
  /-- DESP: decrement the stack pointer (R196). -/
  | desp (arg : Byte)
  deriving DecidableEq, Repr

end Sys2Proof
end

