-- ==== Sys2Proof/Decode.lean ====
section
/-! DEFINITION. The decoder and the encoder (30_encoding.md R84 to R90): pure functions with no state. -/

namespace Sys2Proof

/-- R81: a word is stack-form when its top nibble is 0xF, and standard-form otherwise. -/
def decStack (w : Word) : Bool := w.extractLsb' 12 4 == 0xF#4

/-- R84: `decode(word) → (opcode_byte, arg)`, total on every word. -/
def decodePair (w : Word) : Byte × Operand12 :=
  if decStack w then (((w &&& 0xFF00#16) >>> 8).setWidth 8, (w &&& 0x00FF#16).setWidth 12)
  else (((w &&& 0xF000#16) >>> 8).setWidth 8, (w &&& 0x0FFF#16).setWidth 12)

/-- Why the decoder rejects a word, by name. -/
inductive DecodeError where
  /-- An opcode byte that names no operation (R86, R95). -/
  | undefinedOperation (op : Byte)
  deriving DecidableEq, Repr

/-- The operation an opcode byte names, with its decoded operand (R85, R86). -/
def instrOf (op : Byte) (arg : Operand12) : Except DecodeError Instr :=
  match op with
  | 0x00#8 => .ok (.lodd arg)
  | 0x10#8 => .ok (.stod arg)
  | 0x20#8 => .ok (.addd arg)
  | 0x30#8 => .ok (.subd arg)
  | 0x40#8 => .ok (.jpos arg)
  | 0x50#8 => .ok (.jzer arg)
  | 0x60#8 => .ok (.jump arg)
  | 0x70#8 => .ok (.loco arg)
  | 0x80#8 => .ok (.lodl arg)
  | 0x90#8 => .ok (.stol arg)
  | 0xA0#8 => .ok (.addl arg)
  | 0xB0#8 => .ok (.subl arg)
  | 0xC0#8 => .ok (.jneg arg)
  | 0xD0#8 => .ok (.jnze arg)
  | 0xE0#8 => .ok (.call arg)
  | 0xF0#8 => .ok (.pshi (arg.setWidth 8))
  | 0xF2#8 => .ok (.popi (arg.setWidth 8))
  | 0xF4#8 => .ok (.push (arg.setWidth 8))
  | 0xF6#8 => .ok (.pop (arg.setWidth 8))
  | 0xF8#8 => .ok (.retn (arg.setWidth 8))
  | 0xFA#8 => .ok (.swap (arg.setWidth 8))
  | 0xFC#8 => .ok (.insp (arg.setWidth 8))
  | 0xFE#8 => .ok (.desp (arg.setWidth 8))
  | _ => .error (.undefinedOperation op)

/-- The instruction a word holds, or the name of what is wrong with it (R84 to R86). -/
def decode (w : Word) : Except DecodeError Instr := instrOf (decodePair w).1 (decodePair w).2

/-- R87: output `dec_op[7:0]`. -/
def decOp (w : Word) : Byte := (decodePair w).1

/-- R87: output `dec_arg[11:0]`. -/
def decArg (w : Word) : Operand12 := (decodePair w).2

/-- R87: output `dec_known`. -/
def decKnown (w : Word) : Bool := !decStack w || !w.getLsbD 8

/-- R87: output `dec_index[4:0]`. -/
def decIndex (w : Word) : BitVec 5 :=
  if decKnown w then
    if decStack w then 15#5 + (w.extractLsb' 9 3).setWidth 5 else (w.extractLsb' 12 4).setWidth 5
  else 0#5

/-- R89: `encode(opcode_byte, operand) → word`, on the ports of R90 (`enc_op`, `enc_operand`, `enc_word`). The
standard-form operand is ORed in whole, not masked to 12 bits. -/
def encodePair (op : Byte) (operand : Word) : Word :=
  if op.extractLsb' 4 4 == 0xF#4 then (op.setWidth 16 <<< 8) ||| (operand &&& 0x00FF#16)
  else ((op &&& 0xF0#8).setWidth 16 <<< 8) ||| operand

/-- The opcode byte of an operation (R85). -/
def Instr.opcodeByte : Instr → Byte
  | .lodd _ => 0x00#8
  | .stod _ => 0x10#8
  | .addd _ => 0x20#8
  | .subd _ => 0x30#8
  | .jpos _ => 0x40#8
  | .jzer _ => 0x50#8
  | .jump _ => 0x60#8
  | .loco _ => 0x70#8
  | .lodl _ => 0x80#8
  | .stol _ => 0x90#8
  | .addl _ => 0xA0#8
  | .subl _ => 0xB0#8
  | .jneg _ => 0xC0#8
  | .jnze _ => 0xD0#8
  | .call _ => 0xE0#8
  | .pshi _ => 0xF0#8
  | .popi _ => 0xF2#8
  | .push _ => 0xF4#8
  | .pop _ => 0xF6#8
  | .retn _ => 0xF8#8
  | .swap _ => 0xFA#8
  | .insp _ => 0xFC#8
  | .desp _ => 0xFE#8

/-- The operand of an instruction as the encoder's 16-bit input (R90). -/
def Instr.operand : Instr → Word
  | .lodd a | .stod a | .addd a | .subd a | .jpos a | .jzer a | .jump a | .loco a
  | .lodl a | .stol a | .addl a | .subl a | .jneg a | .jnze a | .call a => a.setWidth 16
  | .pshi b | .popi b | .push b | .pop b | .retn b | .swap b | .insp b | .desp b => b.setWidth 16

/-- The mnemonic index of an operation, its row in the table of R85. -/
def Instr.index : Instr → BitVec 5
  | .lodd _ => 0 | .stod _ => 1 | .addd _ => 2 | .subd _ => 3 | .jpos _ => 4 | .jzer _ => 5
  | .jump _ => 6 | .loco _ => 7 | .lodl _ => 8 | .stol _ => 9 | .addl _ => 10 | .subl _ => 11
  | .jneg _ => 12 | .jnze _ => 13 | .call _ => 14 | .pshi _ => 15 | .popi _ => 16 | .push _ => 17
  | .pop _ => 18 | .retn _ => 19 | .swap _ => 20 | .insp _ => 21 | .desp _ => 22

/-- The word of an instruction (R85, R89). -/
def encode (i : Instr) : Word := encodePair i.opcodeByte i.operand

/-- The instruction the decoder reads from a word whose bits are numbered as the opcode table numbers them. Every
instruction is one 16-bit cell (R80), stored whole (R58), so the word is the cell. -/
def decodeTableWord (nbits w : Nat) : Option Instr :=
  match decode (BitVec.ofNat 16 (w % 2 ^ nbits)) with
  | .ok i => some i
  | .error _ => none

end Sys2Proof
end

