-- ==== Sys2Proof/Machine/Flags.lean ====
section
/-! DEFINITION. The datapath's arithmetic unit and its two tests (10_state.md R36). There are no flags: nothing records
a carry, borrow or overflow (R26). -/

namespace Sys2Proof.Machine

/-- `add16(a, b) = (a + b) mod 65536` (00_scope.md R10, 10_state.md R36). -/
def add16 (a b : Word) : Word := a + b

/-- `sub16(a, b) = (a - b) mod 65536` (00_scope.md R10, 10_state.md R36). -/
def sub16 (a b : Word) : Word := a - b

/-- The zero test `ac = 0` (R36). -/
def isZero (a : Word) : Bool := a == 0#16

/-- The sign test `neg16(ac) = ac[15]` (00_scope.md R10, 10_state.md R36). -/
def neg16 (a : Word) : Bool := a.getLsbD 15

end Sys2Proof.Machine
end

