-- ==== Sys2Proof/Machine/State.lean ====
section
/-! DEFINITION. The state of the micmac machine (10_state.md R20), all of it and nothing else, and its reset value
(70_reset_and_hazards.md R230). -/

namespace Sys2Proof.Machine

/-- The faults a step can raise (60_exceptions.md R201), each with the information its `raise` carries. A raised fault
is TAKEN by the fault entry of R210, which is a next state: `exec` and `step` never answer `Host.Outcome.fault`. Taking
it is safe: the state after it is free but for the fault record (R44). ProgramCompleted (code 8) is a step status and
not a member: it is never latched (R209). -/
inductive Fault where
  /-- Raised by a fetch or a data access at an address of 4096 or more (R202). Safe: the spec's own fault. -/
  | addressOutOfBounds (addr : Nat)
  /-- Raised by a memory write of a value above 65535 (R203); unreachable with 16-bit values. Safe. -/
  | numberOverflow (value : Nat)
  /-- Raised by a checked decrement of `sp` below 2048: PUSH, PSHI, CALL, DESP (R204). Safe: the spec's own fault. -/
  | stackOverflow (pcb : Word)
  /-- Raised by a checked increment of `sp` past 4096 (INSP) and by RETN at depth 0 (R205). Safe: the spec's own fault. -/
  | stackUnderflow (pcb : Word)
  /-- Raised by CALL at depth 99 (R206). Safe: the spec's own fault. -/
  | infiniteRecursion (pcb : Word)
  /-- Raised at decode by a stack-form word with an odd opcode byte (R207). Safe: the spec's own fault. -/
  | undefinedOperation (op : Byte)
  /-- Raised by a reader of `ac` while `acv` = 0 (R208). Safe: the spec's own fault. -/
  | uninitializedAccumulator (pcb : Word)
  deriving DecidableEq, Repr

/-- Reasons for having no meaning. No arm of `exec` uses one: all 23 instructions have their meaning. -/
inductive Refusal where
  /-- Raised only by an arm of `exec` without a meaning (none is left). Safe: nothing follows from a refusal. -/
  | notModelled (mnemonic : String)
  deriving DecidableEq, Repr

/-- The states of the step machine (40_step_cycle.md R120). -/
inductive Fsm where
  | ready
  | fetch
  | decode
  | execute
  | advance
  | halted
  | fault
  deriving DecidableEq, Repr

/-- `fault_phase`: 1 = fetch, 0 = execute (10_state.md R41). -/
inductive Phase where
  | execute
  | fetch
  deriving DecidableEq, Repr

/-- The overlay: a partial map from addresses to words, as (address, word) pairs with addresses strictly rising
(20_memory.md R51, R52). An address that is not listed has no overlay entry, and reads then consult the base. Log 1. -/
abbrev Memory := List (Nat × Word)

/-- Every piece of state of 10_state.md R20. `ended` is the spec's `end`. `base` is the loaded image from address 0;
`Config.basePad` gives the base words beyond it (log 2). -/
structure State where
  pc : Word
  sp : Word
  ac : Word
  acv : Bool
  depth : BitVec 7
  ended : Bool
  overlay : Memory
  base : List Word
  faulted : Bool
  faultCode : BitVec 4
  faultPhase : Phase
  faultPc : Word
  faultAddr : BitVec 17
  ir : Word
  pcb : Word
  fsm : Fsm
  deriving DecidableEq, Repr

/-- The state at launch over a loaded image: that of reset (70_reset_and_hazards.md R230, R231). The spec leaves the
bits of `ac`, `ir` and `pcb` unspecified; the model names 0 for them (DESIGN CHOICE, log 3). -/
def State.launch (image : List Word) : State :=
  { pc := Config.pcReset, sp := BitVec.ofNat 16 Config.stackEmpty, ac := 0, acv := false, depth := 0, ended := false,
    overlay := [], base := image, faulted := false, faultCode := 0, faultPhase := .execute, faultPc := 0,
    faultAddr := 0, ir := 0, pcb := 0, fsm := .ready }

/-- The machine right after reset with no program loaded: every base word is free (R51, log 2). -/
def State.reset : State := State.launch []

end Sys2Proof.Machine
end

