-- ==== Sys2Proof/Machine/Memory.lean ====
section
/-! DEFINITION. The overlay as a map (20_memory.md R51, R52): lookup, write, and its canonical form. -/

namespace Sys2Proof.Machine

/-- The overlay entry at an address, if there is one. -/
def Memory.lookup : Memory → Nat → Option Word
  | [], _ => none
  | (b, w) :: rest, a => if a = b then some w else Memory.lookup rest a

/-- Records a value at an address, replacing an entry already there (R52) and keeping the addresses rising. -/
def Memory.write : Memory → Nat → Word → Memory
  | [], a, v => [(a, v)]
  | (b, w) :: rest, a, v =>
    if a < b then (a, v) :: (b, w) :: rest
    else if a = b then (a, v) :: rest
    else (b, w) :: Memory.write rest a v

/-- The canonical form: addresses strictly rising, each inside memory (R50). An address that is not listed has no
overlay entry, so no entry can repeat what an unlisted address holds. -/
abbrev Memory.wf (m : Memory) : Prop :=
  m.Pairwise (fun c d => c.1 < d.1) ∧ ∀ c ∈ m, c.1 < Config.memSize

/-- The overlay with the listed contents, in canonical form; entries outside memory are dropped. -/
def Memory.ofCells : List (Nat × Word) → Memory
  | [] => []
  | (a, v) :: rest => if a < Config.memSize then (Memory.ofCells rest).write a v else Memory.ofCells rest

end Sys2Proof.Machine
end

