-- ==== Sys2Proof/Machine/Operands.lean ====
section
/-! DEFINITION. The operand forms (30_encoding.md R93). No operand is sign-extended, scaled or shifted (R94), and
address arithmetic is exact (00_scope.md R10). -/

namespace Sys2Proof.Machine

/-- Direct address: the operand as a word address, 0..4095. -/
def directAddr (arg : Operand12) : Nat := arg.toNat

/-- Immediate: `zext_16(arg)`. -/
def immediate (arg : Operand12) : Word := arg.setWidth 16

/-- Target address: the operand as the new `pc`. -/
def target (arg : Operand12) : Word := arg.setWidth 16

/-- Frame offset: the exact address `sp + arg` (43_local.md R170). -/
def frameAddr (s : State) (arg : Operand12) : Nat := s.sp.toNat + arg.toNat

/-- Indirect (stack-form) address: 0..255. -/
def lowAddr (arg : Byte) : Nat := arg.toNat

/-- Count: 0..255. -/
def count (arg : Byte) : Nat := arg.toNat

end Sys2Proof.Machine
end

