-- ==== Sys2Proof/Machine/Ops.lean ====
section
/-! DEFINITION. The named operations of the rules: memory access (20_memory.md R55, R56), the accumulator check
(10_state.md R27), the checked moves of `sp` (R31, R32), fetch (40_step_cycle.md R123), the sequential advance (R125),
fault entry (60_exceptions.md R210) and reset (70_reset_and_hazards.md R230). A raised fault is `Except.error`; no
statement after a raise is executed (00_scope.md R12). -/

namespace Sys2Proof.Machine

/-- The answer of an instruction or a step. -/
abbrev Answer := Host.Outcome State Fault Refusal

/-- The base word at an address: the loaded image, then the free padding (R51). -/
def baseWord (s : State) (a : Nat) : Word := s.base.getD a (Config.basePad a)

/-- `MemRead(addr, 1)` (R55): the address check, then the overlay, then the base. -/
def memRead (s : State) (a : Nat) : Except Fault Word :=
  if a ≥ Config.memSize then .error (.addressOutOfBounds a)
  else match s.overlay.lookup a with
    | some v => .ok v
    | none => .ok (baseWord s a)

/-- `MemWrite(addr, 1, v)` (R56): the address check, then the value check, then the overlay entry. -/
def memWrite (s : State) (a : Nat) (v : Nat) : Except Fault State :=
  if a ≥ Config.memSize then .error (.addressOutOfBounds a)
  else if v > Config.wordMax then .error (.numberOverflow v)
  else .ok { s with overlay := s.overlay.write a (BitVec.ofNat 16 v) }

/-- The address check of a memory write on its own, where a rule places another check between it and the write
(43_local.md R172, 45_stack.md R190). -/
def checkAddr (a : Nat) : Except Fault Unit :=
  if a ≥ Config.memSize then .error (.addressOutOfBounds a) else .ok ()

/-- `RequireAc()` (R27). -/
def requireAc (s : State) : Except Fault Word :=
  if s.acv then .ok s.ac else .error (.uninitializedAccumulator s.pcb)

/-- Writes the accumulator and marks it valid (R24). -/
def setAc (s : State) (v : Word) : State := { s with ac := v, acv := true }

/-- `SpDec(k)` (R31): only the lower bound is checked, on the exact difference. -/
def spDec (s : State) (k : Nat) : Except Fault State :=
  if (s.sp.toNat : Int) - k < Config.stackFloor then .error (.stackOverflow s.pcb)
  else .ok { s with sp := BitVec.ofNat 16 (s.sp.toNat - k) }

/-- `SpInc(k)` (R32): only the upper bound is checked, on the exact sum. -/
def spInc (s : State) (k : Nat) : Except Fault State :=
  if s.sp.toNat + k > Config.stackEmpty then .error (.stackUnderflow s.pcb)
  else .ok { s with sp := BitVec.ofNat 16 (s.sp.toNat + k) }

/-- The numeric code of a fault kind (R201). -/
def Fault.code : Fault → BitVec 4
  | .addressOutOfBounds _ => 1
  | .numberOverflow _ => 2
  | .stackOverflow _ => 3
  | .stackUnderflow _ => 4
  | .infiniteRecursion _ => 5
  | .undefinedOperation _ => 6
  | .uninitializedAccumulator _ => 7

/-- What fault entry records in `fault_addr`: the out-of-range address, 0 for every other kind (R210). -/
def Fault.addr : Fault → BitVec 17
  | .addressOutOfBounds a => BitVec.ofNat 17 a
  | _ => 0

/-- The part of the state that a fault leaves unspecified (10_state.md R44). -/
def volatile (s : State) : Config.Volatile :=
  { pc := s.pc, sp := s.sp, ac := s.ac, acv := s.acv, depth := s.depth, ended := s.ended, ir := s.ir, pcb := s.pcb,
    cells := s.overlay }

/-- Fault entry (R210): the fault record is written and the step machine enters FAULT. Every register and every cell
other than the record is a free value (R44, log 4); the base is never changed by anything (20_memory.md R53). -/
def faultEntry (phase : Phase) (f : Fault) (s : State) : State :=
  let v := Config.afterFault (volatile s) s.base
  { pc := v.pc, sp := v.sp, ac := v.ac, acv := v.acv, depth := v.depth, ended := v.ended, ir := v.ir, pcb := v.pcb,
    overlay := Memory.ofCells v.cells, base := s.base,
    faulted := true, faultCode := f.code, faultPhase := phase, faultPc := s.pcb, faultAddr := f.addr, fsm := .fault }

/-- ADVANCE (R120, R125): `if pc = pcb then pc <- pcb + 1`, decided by comparing values; the step completes into
READY, or HALTED when the body set `end` (R127). -/
def advance (s : State) : State :=
  { s with pc := if s.pc = s.pcb then s.pcb + 1 else s.pc, fsm := if s.ended then .halted else .ready }

/-- The end of EXECUTE (R120): a body that raises nothing goes on to ADVANCE, a raised fault is taken. `s` is the state
the body started from. -/
def finish (s : State) (body : Except Fault State) : Answer :=
  match body with
  | .ok t => .next (advance t)
  | .error f => .next (faultEntry .execute f s)

/-- FETCH (R120, R123): `pcb <- pc`, then `ir <- MemRead(pc, 1)`, and the step machine goes on to DECODE. -/
def fetch (s : State) : Except Fault State :=
  match memRead s s.pc.toNat with
  | .ok w => .ok { s with pcb := s.pc, ir := w, fsm := .decode }
  | .error f => .error f

/-- A fetch that faulted (R123): phase FETCH, with `pcb` already holding `pc`. -/
def fetchFault (f : Fault) (s : State) : State := faultEntry .fetch f { s with pcb := s.pc, fsm := .fetch }

/-- A word that decodes to no operation (R124): UndefinedOperation in phase EXECUTE. -/
def decodeFault (e : DecodeError) (s : State) : State :=
  match e with
  | .undefinedOperation op => faultEntry .execute (.undefinedOperation op) s

/-- DECODE found an operation (R120): the step machine goes on to EXECUTE. -/
def enterExecute (s : State) : State := { s with fsm := .execute }

/-- `Reset()` from any state (R230): the base is kept, everything else takes its reset value. -/
def applyReset (s : State) : State := State.launch s.base

end Sys2Proof.Machine
end

