-- ==== Sys2Proof/Machine/CallReturn.lean ====
section
/-! DEFINITION. Subroutine call and return (44_call_return.md): CALL, RETN. -/

namespace Sys2Proof.Machine

/-- The depth half of CALL (R180): `d <- depth + 1`, checked against DEPTH_MAX. -/
def depthInc (s : State) : Except Fault State :=
  if s.depth.toNat + 1 ≥ Config.depthMax then .error (.infiniteRecursion s.pcb)
  else .ok { s with depth := BitVec.ofNat 7 (s.depth.toNat + 1) }

/-- The depth half of RETN (R181): `d <- depth - 1`, exact, checked against 0. -/
def depthDec (s : State) : Except Fault State :=
  if (s.depth.toNat : Int) - 1 < 0 then .error (.stackUnderflow s.pcb)
  else .ok { s with depth := BitVec.ofNat 7 (s.depth.toNat - 1) }

/-- CALL (R180): depth, then the checked push of `pcb + 1`, then `pc <- arg`. -/
def execCall (arg : Operand12) (s : State) : Answer :=
  finish s do
    let s1 ← depthInc s
    let s2 ← spDec s1 1
    let s3 ← memWrite s2 s2.sp.toNat (s.pcb.toNat + 1)
    return { s3 with pc := target arg }

/-- RETN (R181): depth, then `pc <- mem[sp]`, then the checked increment of `sp`. -/
def execRetn (_ignored : Byte) (s : State) : Answer :=
  finish s do
    let s1 ← depthDec s
    let t ← memRead s1 s1.sp.toNat
    spInc { s1 with pc := t } 1

end Sys2Proof.Machine
end

