-- ==== Sys2Proof/Machine/Direct.lean ====
section
/-! DEFINITION. The direct and immediate instructions (41_direct.md): LODD, STOD, LOCO, ADDD, SUBD. -/

namespace Sys2Proof.Machine

/-- LODD (R150): `ac <- mem[arg]`. -/
def execLodd (arg : Operand12) (s : State) : Answer :=
  finish s do
    let v ← memRead s (directAddr arg)
    return setAc s v

/-- STOD (R151): `mem[arg] <- ac`. -/
def execStod (arg : Operand12) (s : State) : Answer :=
  finish s do
    let a ← requireAc s
    memWrite s (directAddr arg) a.toNat

/-- LOCO (R152): `ac <- zext_16(arg)`. -/
def execLoco (arg : Operand12) (s : State) : Answer :=
  finish s (.ok (setAc s (immediate arg)))

/-- ADDD (R153): `ac <- add16(ac, mem[arg])`. -/
def execAddd (arg : Operand12) (s : State) : Answer :=
  finish s do
    let m ← memRead s (directAddr arg)
    let a ← requireAc s
    return setAc s (add16 a m)

/-- SUBD (R154): `ac <- sub16(ac, mem[arg])`. -/
def execSubd (arg : Operand12) (s : State) : Answer :=
  finish s do
    let m ← memRead s (directAddr arg)
    let a ← requireAc s
    return setAc s (sub16 a m)

end Sys2Proof.Machine
end

