-- ==== Sys2Proof/Machine/Jumps.lean ====
section
/-! DEFINITION. The jumps (42_jumps.md): JUMP, JZER, JNZE, JNEG, JPOS. -/

namespace Sys2Proof.Machine

/-- The shape of a conditional jump (R161 to R164): the accumulator check, then `pc <- arg` when the test of the
accumulator holds. -/
def jumpIf (test : Word → Bool) (arg : Operand12) (s : State) : Except Fault State := do
  let a ← requireAc s
  return if test a then { s with pc := target arg } else s

/-- JUMP (R160): a self-jump sets the halt flag; then `pc <- arg`. -/
def execJump (arg : Operand12) (s : State) : Answer :=
  let s1 := if target arg = s.pcb then { s with ended := true } else s
  finish s (.ok { s1 with pc := target arg })

/-- JZER (R161): jump if `ac = 0`. -/
def execJzer (arg : Operand12) (s : State) : Answer := finish s (jumpIf isZero arg s)

/-- JNZE (R162): jump if `ac != 0`. -/
def execJnze (arg : Operand12) (s : State) : Answer := finish s (jumpIf (fun a => !isZero a) arg s)

/-- JNEG (R163): jump if `ac[15] = 1`. -/
def execJneg (arg : Operand12) (s : State) : Answer := finish s (jumpIf neg16 arg s)

/-- JPOS (R164): jump if `ac[15] = 0`. -/
def execJpos (arg : Operand12) (s : State) : Answer := finish s (jumpIf (fun a => !neg16 a) arg s)

end Sys2Proof.Machine
end

