-- ==== Sys2Proof/Machine/Local.lean ====
section
/-! DEFINITION. The frame-relative instructions (43_local.md): LODL, STOL, ADDL, SUBL, on the address `sp + arg`. -/

namespace Sys2Proof.Machine

/-- LODL (R171): `ac <- mem[sp + arg]`. -/
def execLodl (arg : Operand12) (s : State) : Answer :=
  finish s do
    let v ← memRead s (frameAddr s arg)
    return setAc s v

/-- STOL (R172): `mem[sp + arg] <- ac`, the address check first. -/
def execStol (arg : Operand12) (s : State) : Answer :=
  finish s do
    checkAddr (frameAddr s arg)
    let a ← requireAc s
    memWrite s (frameAddr s arg) a.toNat

/-- ADDL (R173): `ac <- add16(ac, mem[sp + arg])`. -/
def execAddl (arg : Operand12) (s : State) : Answer :=
  finish s do
    let m ← memRead s (frameAddr s arg)
    let a ← requireAc s
    return setAc s (add16 a m)

/-- SUBL (R174): `ac <- sub16(ac, mem[sp + arg])`. -/
def execSubl (arg : Operand12) (s : State) : Answer :=
  finish s do
    let m ← memRead s (frameAddr s arg)
    let a ← requireAc s
    return setAc s (sub16 a m)

end Sys2Proof.Machine
end

