-- ==== Sys2Proof/Machine/Stack.lean ====
section
/-! DEFINITION. The stack instructions (45_stack.md): PUSH, POP, PSHI, POPI, SWAP, INSP, DESP. -/

namespace Sys2Proof.Machine

/-- PUSH (R190): the checked decrement, the address check, the accumulator check, then the write. -/
def execPush (_ignored : Byte) (s : State) : Answer :=
  finish s do
    let s1 ← spDec s 1
    checkAddr s1.sp.toNat
    let a ← requireAc s1
    memWrite s1 s1.sp.toNat a.toNat

/-- POP (R191): `ac <- mem[sp]`, then the checked increment. -/
def execPop (_ignored : Byte) (s : State) : Answer :=
  finish s do
    let v ← memRead s s.sp.toNat
    spInc (setAc s v) 1

/-- PSHI (R192): the checked decrement, then `mem[sp] <- mem[arg]`. -/
def execPshi (arg : Byte) (s : State) : Answer :=
  finish s do
    let s1 ← spDec s 1
    let v ← memRead s1 (lowAddr arg)
    memWrite s1 s1.sp.toNat v.toNat

/-- POPI (R193): `mem[arg] <- mem[sp]`, then the checked increment. -/
def execPopi (arg : Byte) (s : State) : Answer :=
  finish s do
    let v ← memRead s s.sp.toNat
    let s1 ← memWrite s (lowAddr arg) v.toNat
    spInc s1 1

/-- SWAP (R194): exchanges `sp` and `ac`, with no bounds check. -/
def execSwap (_ignored : Byte) (s : State) : Answer :=
  finish s do
    let a ← requireAc s
    return setAc { s with sp := a } s.sp

/-- INSP (R195): `SpInc(arg)`. -/
def execInsp (arg : Byte) (s : State) : Answer := finish s (spInc s (count arg))

/-- DESP (R196): `SpDec(arg)`. -/
def execDesp (arg : Byte) (s : State) : Answer := finish s (spDec s (count arg))

end Sys2Proof.Machine
end

