-- ==== Sys2Proof/Machine/Dispatch.lean ====
section
/-! DEFINITION. Dispatch: one arm per constructor of Instr, each a direct call of its meaning (40_step_cycle.md R125). -/

namespace Sys2Proof.Machine

def exec (i : Instr) (s : State) : Host.Outcome State Fault Refusal :=
  match i with
  | .lodd arg => Sys2Proof.Machine.execLodd arg s
  | .stod arg => Sys2Proof.Machine.execStod arg s
  | .addd arg => Sys2Proof.Machine.execAddd arg s
  | .subd arg => Sys2Proof.Machine.execSubd arg s
  | .jpos arg => Sys2Proof.Machine.execJpos arg s
  | .jzer arg => Sys2Proof.Machine.execJzer arg s
  | .jump arg => Sys2Proof.Machine.execJump arg s
  | .loco arg => Sys2Proof.Machine.execLoco arg s
  | .lodl arg => Sys2Proof.Machine.execLodl arg s
  | .stol arg => Sys2Proof.Machine.execStol arg s
  | .addl arg => Sys2Proof.Machine.execAddl arg s
  | .subl arg => Sys2Proof.Machine.execSubl arg s
  | .jneg arg => Sys2Proof.Machine.execJneg arg s
  | .jnze arg => Sys2Proof.Machine.execJnze arg s
  | .call arg => Sys2Proof.Machine.execCall arg s
  | .pshi arg => Sys2Proof.Machine.execPshi arg s
  | .popi arg => Sys2Proof.Machine.execPopi arg s
  | .push ignored => Sys2Proof.Machine.execPush ignored s
  | .pop ignored => Sys2Proof.Machine.execPop ignored s
  | .retn ignored => Sys2Proof.Machine.execRetn ignored s
  | .swap ignored => Sys2Proof.Machine.execSwap ignored s
  | .insp arg => Sys2Proof.Machine.execInsp arg s
  | .desp arg => Sys2Proof.Machine.execDesp arg s

end Sys2Proof.Machine
end

