-- ==== Sys2Proof/Machine/Step.lean ====
section
/-! DEFINITION. One step of the machine, as one transition between step boundaries (40_step_cycle.md R121). -/

namespace Sys2Proof.Machine

/-- `Step()` (R121). A faulted machine and a halted machine refuse the request and change nothing (R127, R122); the
status of the answer is `stepStatus` (Machine/Driver.lean). Otherwise: fetch (R123), decode (R124), the instruction's
body and the sequential advance (R125), with every fault taken by fault entry (R210). Log 5. -/
def step (s : State) : Host.Outcome State Fault Refusal :=
  if s.faulted then .next s
  else if s.ended then .next s
  else match fetch s with
    | .error f => .next (fetchFault f s)
    | .ok t =>
      match decode t.ir with
      | .error e => .next (decodeFault e t)
      | .ok i => exec i (enterExecute t)

/-- `s` with a word stored in the cell the next step fetches, as an overlay entry at `pc` (R67, R123). A state in which
the next step would fetch nothing (HALTED, FAULT, or `pc` outside memory) is moved to READY, and to the reset `pc`, as
fetching needs. It stands for a program's presence in memory; log 6 says how a program comes to run. -/
def State.withFetchWord (s : State) (nbits w : Nat) : State :=
  let at_ := if s.pc.toNat < Config.memSize then s.pc else Config.pcReset
  { s with
    pc := at_, ended := false, faulted := false, fsm := .ready,
    overlay := s.overlay.write at_.toNat (BitVec.ofNat 16 (w % 2 ^ nbits)) }

end Sys2Proof.Machine
end

