-- ==== Sys2Proof/Machine/Assembler.lean ====
section
/-! DEFINITION. The assembler (30_encoding.md section 8, R100 to R114): toolchain, not hardware. It turns lines of text
into the words of a program image, which become the first words of the machine's base (R113). -/

namespace Sys2Proof.Assembler

/-- The text of a line or a token. -/
abbrev Text := List Char

/-- The kinds of assembly failure (R111). -/
inductive ErrorKind where
  /-- An unknown mnemonic (R105). -/
  | undefinedOperation
  /-- A reference to a label that is never bound (R109). -/
  | undefinedLabel
  /-- A label defined twice (R104). -/
  | namespaceException
  /-- A malformed line (R103, R104). -/
  | parseError
  /-- A numeric operand above 65535 (R112). -/
  | numberOverflow
  /-- A 4097th instruction line (R107). -/
  | addressOutOfBounds
  deriving DecidableEq, Repr

/-- The one failure that is reported: its kind, the 1-based source line number and the offending line's text (R110). -/
structure Failure where
  kind : ErrorKind
  line : Nat
  text : Text
  deriving DecidableEq, Repr

/-- Splits a line at its first unescaped `;` into code and comment (R101). A `;` right after a backslash is escaped,
and both characters stay in the code. `prev` says whether the character before was a backslash. -/
def splitComment (prev : Bool) : Text → Text × Text
  | [] => ([], [])
  | c :: rest =>
    if c = ';' ∧ prev = false then ([], rest)
    else
      let r := splitComment (c == '\\') rest
      (c :: r.1, r.2)

/-- The marker of a debug directive (R102). -/
def dbgMarker : Text := ['d', 'b', 'g', '_']

/-- The text that follows the first `dbg_` marker of a comment, if there is one (R102). -/
def directive : Text → Option Text
  | [] => none
  | c :: rest =>
    if dbgMarker.isPrefixOf (c :: rest) then some ((c :: rest).drop dbgMarker.length) else directive rest

/-- Puts a finished token before the others; an empty one is dropped. -/
def flushToken (cur : Text) (rest : List Text) : List Text :=
  if cur.isEmpty then rest else cur.reverse :: rest

/-- Splits code into its whitespace-separated tokens (R103); `cur` is the token being read, last character first. -/
def tokensFrom (cur : Text) : Text → List Text
  | [] => flushToken cur []
  | c :: rest => if c.isWhitespace then flushToken cur (tokensFrom [] rest) else tokensFrom (c :: cur) rest

/-- The tokens of a line's code (R103). -/
def tokens (code : Text) : List Text := tokensFrom [] code

/-- A label token ends with `:` (R104). -/
def isLabel (t : Text) : Bool := t.getLast? == some ':'

/-- A line of the grammar of R114: an optional label, and an optional mnemonic with an optional operand. -/
structure Line where
  label : Option Text
  op : Option (Text × Option Text)
  deriving DecidableEq, Repr

/-- The shape of the tokens after the label (R103): a mnemonic and at most one operand, none of them a label (R104). -/
def parseOp (label : Option Text) : List Text → Except ErrorKind Line
  | [] => .ok { label := label, op := none }
  | [m] => if isLabel m then .error .parseError else .ok { label := label, op := some (m, none) }
  | [m, x] =>
    if isLabel m || isLabel x then .error .parseError else .ok { label := label, op := some (m, some x) }
  | _ => .error .parseError

/-- The shape of a line's tokens (R103, R104). A label's name is its token without the final `:`, and is not empty. -/
def parseTokens : List Text → Except ErrorKind Line
  | [] => .ok { label := none, op := none }
  | t :: rest =>
    if isLabel t then
      if t.dropLast.isEmpty then .error .parseError else parseOp (some t.dropLast) rest
    else parseOp none (t :: rest)

/-- The mnemonics the assembler accepts and their opcode bytes (R85, R105): the 23 operations and DEFN. -/
def mnemonics : List (Text × Byte) :=
  [(['L', 'O', 'D', 'D'], 0x00), (['S', 'T', 'O', 'D'], 0x10), (['A', 'D', 'D', 'D'], 0x20),
   (['S', 'U', 'B', 'D'], 0x30), (['J', 'P', 'O', 'S'], 0x40), (['J', 'Z', 'E', 'R'], 0x50),
   (['J', 'U', 'M', 'P'], 0x60), (['L', 'O', 'C', 'O'], 0x70), (['L', 'O', 'D', 'L'], 0x80),
   (['S', 'T', 'O', 'L'], 0x90), (['A', 'D', 'D', 'L'], 0xA0), (['S', 'U', 'B', 'L'], 0xB0)] ++
  [(['J', 'N', 'E', 'G'], 0xC0), (['J', 'N', 'Z', 'E'], 0xD0), (['C', 'A', 'L', 'L'], 0xE0),
   (['P', 'S', 'H', 'I'], 0xF0), (['P', 'O', 'P', 'I'], 0xF2), (['P', 'U', 'S', 'H'], 0xF4),
   (['P', 'O', 'P'], 0xF6), (['R', 'E', 'T', 'N'], 0xF8), (['S', 'W', 'A', 'P'], 0xFA),
   (['I', 'N', 'S', 'P'], 0xFC), (['D', 'E', 'S', 'P'], 0xFE), (['D', 'E', 'F', 'N'], 0x00)]

/-- The opcode byte of a mnemonic: exact and case-sensitive (R105). -/
def lookupMnemonic (m : Text) : Option Byte := mnemonics.lookup m

/-- A purely numeric token: one or more decimal digits (R106). -/
def isNumeric (t : Text) : Bool := !t.isEmpty && t.all Char.isDigit

/-- The value of a decimal token. -/
def numeral (t : Text) : Nat := t.foldl (fun n c => 10 * n + (c.toNat - '0'.toNat)) 0

/-- What an operand token stands for (R106): an immediate, or a reference to a label. -/
inductive OperandRef where
  | immediate (v : Word)
  | label (name : Text)
  deriving DecidableEq, Repr

/-- Reads an operand token (R106, R112): an absent operand is 0, a number above 65535 is rejected. -/
def readOperand : Option Text → Except ErrorKind OperandRef
  | none => .ok (.immediate 0)
  | some t =>
    if isNumeric t then
      if numeral t > Config.wordMax then .error .numberOverflow else .ok (.immediate (BitVec.ofNat 16 (numeral t)))
    else .ok (.label t)

/-- A reference waiting for pass 2 (R106): the address of its word, the label's name, and the line it stands on. -/
structure Queued where
  addr : Nat
  name : Text
  line : Nat
  text : Text
  deriving DecidableEq, Repr

/-- What pass 1 has built so far. `pending` holds the labels met since the last instruction line (R108). -/
structure Partial where
  words : List Word
  symbols : List (Text × Nat)
  pending : List Text
  queue : List Queued
  directives : List (Nat × Text)
  deriving DecidableEq, Repr

/-- The assembled program: its words from address 0 (R113), its symbol table, and the debug directives by line, passed
through and not interpreted (R102). -/
structure Program where
  words : List Word
  symbols : List (Text × Nat)
  directives : List (Nat × Text)
  deriving DecidableEq, Repr

/-- Pass 1 begins with nothing. -/
def Partial.empty : Partial := { words := [], symbols := [], pending := [], queue := [], directives := [] }

/-- Takes up a line's label (R104, R108): a name already bound or pending is a NamespaceException. -/
def addLabel (p : Partial) : Option Text → Except ErrorKind Partial
  | none => .ok p
  | some name =>
    if (p.symbols.map Prod.fst ++ p.pending).contains name then .error .namespaceException
    else .ok { p with pending := p.pending ++ [name] }

/-- Binds every pending label to the address of the instruction line reached (R108). -/
def bindPending (p : Partial) : Partial :=
  { p with symbols := p.symbols ++ p.pending.map (fun name => (name, p.words.length)), pending := [] }

/-- Pass 1 on an instruction line (R105 to R109): look up the mnemonic, read the operand, take the next address, bind
the pending labels, and encode with the immediate or the provisional 0. -/
def addInstruction (p : Partial) (line : Nat) (text m : Text) (operand : Option Text) : Except ErrorKind Partial :=
  match lookupMnemonic m with
  | none => .error .undefinedOperation
  | some op =>
    match readOperand operand with
    | .error k => .error k
    | .ok ref =>
      if p.words.length ≥ Config.memSize then .error .addressOutOfBounds
      else
        let q := bindPending p
        match ref with
        | .immediate v => .ok { q with words := q.words ++ [encodePair op v] }
        | .label name =>
          .ok { q with
            words := q.words ++ [encodePair op 0]
            queue := q.queue ++ [{ addr := p.words.length, name := name, line := line, text := text }] }

/-- Pass 1 on the parsed tokens of one line (R107, R108): a line without a mnemonic consumes no address. -/
def addLine (p : Partial) (line : Nat) (text : Text) (l : Line) : Except ErrorKind Partial :=
  match addLabel p l.label with
  | .error k => .error k
  | .ok q =>
    match l.op with
    | none => .ok q
    | some (m, operand) => addInstruction q line text m operand

/-- Keeps the debug directive of a line, if it has one (R102). -/
def addDirective (p : Partial) (line : Nat) (comment : Text) : Partial :=
  match directive comment with
  | none => p
  | some d => { p with directives := p.directives ++ [(line, d)] }

/-- Pass 1 on one line of text. -/
def passOneLine (p : Partial) (line : Nat) (text : Text) : Except Failure Partial :=
  let parts := splitComment false text
  match parseTokens (tokens parts.1) with
  | .error k => .error { kind := k, line := line, text := text }
  | .ok l =>
    match addLine p line text l with
    | .error k => .error { kind := k, line := line, text := text }
    | .ok q => .ok (addDirective q line parts.2)

/-- Pass 1 (R100, R109): line by line from the given line number, and the first error aborts. -/
def passOne (p : Partial) (line : Nat) : List Text → Except Failure Partial
  | [] => .ok p
  | text :: rest =>
    match passOneLine p line text with
    | .error f => .error f
    | .ok q => passOne q (line + 1) rest

/-- Pass 2 on one word (R109): decode it to recover its opcode and encode it again with the label's address. -/
def patchWord (w : Word) (addr : Nat) : Word := encodePair (decodePair w).1 (BitVec.ofNat 16 addr)

/-- Pass 2 (R109): each queued reference in turn, and a missing label aborts. -/
def passTwo (symbols : List (Text × Nat)) (words : List Word) : List Queued → Except Failure (List Word)
  | [] => .ok words
  | q :: rest =>
    match symbols.lookup q.name with
    | none => .error { kind := .undefinedLabel, line := q.line, text := q.text }
    | some a => passTwo symbols (words.modify q.addr (fun w => patchWord w a)) rest

/-- Assembly (R100, R110): a complete program or a single failure. -/
def assemble (source : List Text) : Except Failure Program :=
  match passOne Partial.empty 1 source with
  | .error f => .error f
  | .ok p =>
    match passTwo p.symbols p.words p.queue with
    | .error f => .error f
    | .ok ws => .ok { words := ws, symbols := p.symbols, directives := p.directives }

end Sys2Proof.Assembler
end

