-- ==== Sys2Proof/Machine/Driver.lean ====
section
/-! DEFINITION. The host's side of the machine (40_step_cycle.md R128 to R134): the status of a step, `run()` under a
bound on its steps, `reset()`, the read-only accessors, `peek`, and the output ports. -/

namespace Sys2Proof.Machine

/-- `step_status` = OK (R134, 60_exceptions.md R201). -/
def statusOk : BitVec 4 := 0

/-- `step_status` = ProgramCompleted (R201, R209). -/
def statusProgramCompleted : BitVec 4 := 8

/-- The status with which a step requested in `s` is answered (R121): the latched code of a faulted machine (R127),
ProgramCompleted of a halted one (R122), the code of a fault this step raises (R210), or OK. -/
def stepStatus (s : State) : BitVec 4 :=
  if s.faulted then s.faultCode
  else if s.ended then statusProgramCompleted
  else match step s with
    | .next t => if t.faulted then t.faultCode else statusOk
    | .fault f => f.code
    | .refused _ => statusOk

/-- The state a step requested in `s` leaves. -/
def stepState (s : State) : State :=
  match step s with
  | .next t => t
  | .fault _ => s
  | .refused _ => s

/-- How a bounded `run()` ended (R129). -/
inductive RunEnd where
  /-- `run()` returned this status: OK after the halt flag was set, ProgramCompleted when it was set at entry, or the
  code of the fault that ended it. -/
  | returned (status : BitVec 4)
  /-- The bound on the number of steps was reached: the run has not ended. -/
  | outOfFuel
  deriving DecidableEq, Repr

/-- The loop of `run()` (R129) under a bound on its steps (D30). -/
def runLoop : Nat → State → RunEnd × State
  | 0, s => (.outOfFuel, s)
  | n + 1, s =>
    let t := stepState s
    if stepStatus s ≠ statusOk then (.returned (stepStatus s), t)
    else if t.ended then (.returned statusOk, t)
    else runLoop n t

/-- `run()` (R129) under a bound on its steps: it fails at once if the program has already ended. -/
def run (fuel : Nat) (s : State) : RunEnd × State :=
  if s.ended then (.returned statusProgramCompleted, s) else runLoop fuel s

/-- `peek(addr)` (R131): the value of a cell, or an AddressOutOfBounds error to the host; the machine is unchanged. -/
def peek (s : State) (a : Nat) : Except Fault Word := memRead s a

/-- The `ac` accessor (10_state.md R42): no value while `acv` = 0, "unset". -/
def acAccessor (s : State) : Option Word := if s.acv then some s.ac else none

/-- `fault_phase` as the one-bit port (R134): 1 = fetch, 0 = execute. -/
def Phase.bit : Phase → BitVec 1
  | .execute => 0
  | .fetch => 1

/-- The output ports of R134 that show the state between steps. -/
structure Ports where
  pcO : Word
  spO : Word
  acO : Word
  acvO : Bool
  endedO : Bool
  faultedO : Bool
  depthO : BitVec 7
  faultCodeO : BitVec 4
  faultPhaseO : BitVec 1
  faultPcO : Word
  faultAddrO : BitVec 17
  deriving DecidableEq, Repr

/-- The output ports in a state (R131, R134). -/
def ports (s : State) : Ports :=
  { pcO := s.pc, spO := s.sp, acO := s.ac, acvO := s.acv, endedO := s.ended, faultedO := s.faulted, depthO := s.depth,
    faultCodeO := s.faultCode, faultPhaseO := s.faultPhase.bit, faultPcO := s.faultPc, faultAddrO := s.faultAddr }

/-- `peek_err` for `peek_addr` (R134): 1 when `peek_addr >= MEM_SIZE`. -/
def peekErr (a : Word) : Bool := decide (a.toNat ≥ Config.memSize)

/-- `peek_data` for `peek_addr` (R134), which has a meaning only when `peek_err` = 0. -/
def peekData (s : State) (a : Word) : Option Word :=
  match peek s a.toNat with
  | .ok v => some v
  | .error _ => none

/-- What the host may ask of the machine between steps that changes its state (R128). -/
inductive Request where
  | step
  | reset
  deriving DecidableEq, Repr

/-- The state after a request (R128, R130): `reset()` may be called in any state. -/
def serve (r : Request) (s : State) : State :=
  match r with
  | .step => stepState s
  | .reset => applyReset s

end Sys2Proof.Machine
end

