-- ==== Sys2Proof/WellFormed.lean ====
section
/-! DEFINITION. Which data are well formed: an instruction's operand, the (opcode byte, operand) pairs the encoder
carries without loss (30_encoding.md R91), and a program image that fits the base (20_memory.md R51). -/

namespace Sys2Proof

/-- The operand of an instruction lies in the range its form encodes: 0..4095 in standard form, 0..255 in stack form
(00_scope.md R8). The operand types keep these ranges, so every instruction passes (Laws/PerInstr.lean). -/
def Instr.wf : Instr → Bool
  | .lodd a | .stod a | .addd a | .subd a | .jpos a | .jzer a | .jump a | .loco a
  | .lodl a | .stol a | .addl a | .subl a | .jneg a | .jnze a | .call a => decide (a.toNat < 4096)
  | .pshi b | .popi b | .push b | .pop b | .retn b | .swap b | .insp b | .desp b => decide (b.toNat < 256)

/-- R91: the pairs the encoder and the decoder carry back and forth exactly. Either a stack-form byte (top nibble 0xF)
and an operand in 0..255, or a standard-form byte with low nibble 0 and an operand in 0..4095. -/
def validPair (op : Byte) (operand : Word) : Bool :=
  if op.toNat / 16 = 15 then decide (operand.toNat < 256)
  else decide (op.toNat % 16 = 0) && decide (operand.toNat < 4096)

/-- R51: a loaded image has at most 4096 words. -/
def imageFits (image : List Word) : Bool := decide (image.length ≤ Config.memSize)

end Sys2Proof
end

