-- ==== Sys2Proof/Safety.lean ====
section
/-! DEFINITION. What counts as a safe run: the two ways a run ends (40_step_cycle.md R135), the situation an
instruction's body starts in, and the invariant of the step boundary. -/

namespace Sys2Proof.Machine

/-- The only successful end of a run (R135): the halt flag, in a machine that has not faulted. -/
abbrev State.Halted (s : State) : Prop := s.faulted = false ∧ s.ended = true

/-- The machine has faulted (R135): never a successful end, and nothing but the fault record may be read. -/
abbrev State.Faulted (s : State) : Prop := s.faulted = true

/-- A machine that runs: neither halted nor faulted (R120, READY). -/
abbrev State.Running (s : State) : Prop := s.faulted = false ∧ s.ended = false

/-- Where an instruction's body starts (R120, R121): a running machine in EXECUTE, `pcb` holding the address of the
instruction, which `pc` still equals (10_state.md R35) and which the fetch has read (R123). -/
abbrev State.InExecute (s : State) : Prop :=
  s.faulted = false ∧ s.ended = false ∧ s.pcb = s.pc ∧ s.pc.toNat < Config.memSize

/-- The valid range of `sp` that the checked operations keep (10_state.md R30, 45_stack.md R198). -/
abbrev SpInRange (sp : Word) : Prop := Config.stackFloor ≤ sp.toNat ∧ sp.toNat ≤ Config.stackEmpty

/-- The fault record is clear (70_reset_and_hazards.md R230). -/
abbrev State.RecordClear (s : State) : Prop :=
  s.faulted = false ∧ s.faultCode = 0 ∧ s.faultPhase = .execute ∧ s.faultPc = 0 ∧ s.faultAddr = 0

/-- A latched fault record is one that fault entry can write (10_state.md R41, 60_exceptions.md R201 to R203): a code
of 1 or 3..7, an address only with code 1 and then outside memory, and phase FETCH only for a fetch at `fault_pc`. -/
abbrev State.RecordLatched (s : State) : Prop :=
  s.faulted = true ∧ 1 ≤ s.faultCode.toNat ∧ s.faultCode.toNat ≤ 7 ∧ s.faultCode ≠ 2 ∧
  (s.faultCode = 1 → Config.memSize ≤ s.faultAddr.toNat) ∧ (s.faultCode ≠ 1 → s.faultAddr = 0) ∧
  (s.faultPhase = .fetch → s.faultCode = 1 ∧ s.faultAddr = s.faultPc.setWidth 17)

/-- The state the step machine is in at a step boundary (R120, R127). -/
def boundaryFsm (s : State) : Fsm :=
  if s.faulted then .fault else if s.ended then .halted else .ready

/-- The invariant of every step boundary: the overlay is canonical and inside memory (20_memory.md R50), the base is no
larger than memory (R51), `depth` is in [0, 100) unless the machine has faulted (10_state.md R37, R38), the fault record
is clear or one that fault entry writes, and the step machine is in the boundary state of its flags. -/
abbrev State.Inv (s : State) : Prop :=
  s.overlay.wf ∧ imageFits s.base = true ∧ (s.faulted = false → s.depth.toNat < Config.depthMax) ∧
  (s.RecordClear ∨ s.RecordLatched) ∧ s.fsm = boundaryFsm s

/-- The answer takes a fault in the execute phase (60_exceptions.md R210): a next state whose record holds this code and
address and names the instruction's address, in FAULT, over the same base. Nothing is said of the rest (R44). -/
abbrev TakesFault (s : State) (answer : Answer) (code : BitVec 4) (addr : Nat) : Prop :=
  ∃ t, answer = .next t ∧ t.faulted = true ∧ t.faultCode = code ∧ t.faultPhase = .execute ∧ t.faultPc = s.pc ∧
    t.faultAddr = BitVec.ofNat 17 addr ∧ t.fsm = .fault ∧ t.base = s.base

/-- The instructions that write `ac` (10_state.md R23). -/
def writesAc : Instr → Bool
  | .lodd _ | .loco _ | .addd _ | .subd _ | .lodl _ | .addl _ | .subl _ | .pop _ | .swap _ => true
  | .stod _ | .jpos _ | .jzer _ | .jump _ | .stol _ | .jneg _ | .jnze _ | .call _ | .pshi _ | .popi _ | .push _
  | .retn _ | .insp _ | .desp _ => false

/-- The instructions that read `ac` (10_state.md R23). -/
def readsAc : Instr → Bool
  | .stod _ | .addd _ | .subd _ | .stol _ | .addl _ | .subl _ | .jpos _ | .jzer _ | .jneg _ | .jnze _ | .push _
  | .swap _ => true
  | .lodd _ | .jump _ | .loco _ | .lodl _ | .call _ | .pshi _ | .popi _ | .pop _ | .retn _ | .insp _ | .desp _ => false

/-- Where an instruction sends control when it transfers (40_step_cycle.md R126): the target of a taken jump, of a CALL
or of a RETN; none for every other instruction and for a jump not taken. -/
def transferTarget (s : State) : Instr → Option Word
  | .jump a | .call a => some (target a)
  | .jzer a => if s.ac = 0 then some (target a) else none
  | .jnze a => if s.ac ≠ 0 then some (target a) else none
  | .jneg a => if s.ac.toInt < 0 then some (target a) else none
  | .jpos a => if 0 ≤ s.ac.toInt then some (target a) else none
  | .retn _ => match memRead s s.sp.toNat with
    | .ok v => some v
    | .error _ => none
  | .lodd _ | .stod _ | .addd _ | .subd _ | .loco _ | .lodl _ | .stol _ | .addl _ | .subl _ | .pshi _ | .popi _
  | .push _ | .pop _ | .swap _ | .insp _ | .desp _ => none

/-- The one cell an instruction stores to (20_memory.md R64), and none for an instruction that stores nothing. -/
def storeAddress (s : State) : Instr → Option Nat
  | .stod a => some (directAddr a)
  | .stol a => some (frameAddr s a)
  | .push _ | .pshi _ | .call _ => some (s.sp.toNat - 1)
  | .popi b => some (lowAddr b)
  | .lodd _ | .addd _ | .subd _ | .jpos _ | .jzer _ | .jump _ | .loco _ | .lodl _ | .addl _ | .subl _ | .jneg _
  | .jnze _ | .pop _ | .retn _ | .swap _ | .insp _ | .desp _ => none

/-- The codes of the faults an instruction's body can raise (60_exceptions.md R212, codes of R201). -/
def faultCodes : Instr → List (BitVec 4)
  | .lodd _ | .loco _ | .jump _ => []
  | .stod _ | .addd _ | .subd _ | .jzer _ | .jnze _ | .jneg _ | .jpos _ | .swap _ => [7]
  | .lodl _ | .pop _ | .popi _ => [1]
  | .stol _ | .addl _ | .subl _ => [1, 7]
  | .push _ => [3, 1, 7]
  | .pshi _ => [3, 1]
  | .call _ => [5, 3, 1]
  | .retn _ => [4, 1]
  | .insp _ => [4]
  | .desp _ => [3]

/-- The next step executes a SWAP. -/
abbrev ExecutesSwap (s : State) : Prop :=
  s.Running ∧ ∃ w b, memRead s s.pc.toNat = .ok w ∧ decode w = .ok (.swap b)

end Sys2Proof.Machine
end

