-- ==== Sys2Proof/Certificates/Slice0/Obligations.lean ====
section
/-! DEFINITION. The statements for the provers. A statement about an instruction's body holds in every state in which a
body starts (`State.InExecute`); a record update `{ s with … }` says what changes and that nothing else does. -/

open Sys2Proof Sys2Proof.Machine

/-! ### Encoding -/

/-- R84: the decoder splits a word by its top nibble, and only by it. -/
def Obligations.DecoderSplitsEveryWordByItsForm : Prop :=
  ∀ w : Word,
    (w.toNat / 4096 = 15 →
      (decodePair w).1.toNat = w.toNat / 256 ∧ (decodePair w).2.toNat = w.toNat % 256) ∧
    (w.toNat / 4096 ≠ 15 →
      (decodePair w).1.toNat = 16 * (w.toNat / 4096) ∧ (decodePair w).2.toNat = w.toNat % 4096)

/-- R89: the encoder cuts a stack-form operand to its low 8 bits and ORs a standard-form operand in whole. -/
def Obligations.EncoderPlacesOpcodeAndOperand : Prop :=
  ∀ (op : Byte) (x : Word),
    (op.toNat / 16 = 15 → (encodePair op x).toNat = 256 * op.toNat + x.toNat % 256) ∧
    (op.toNat / 16 ≠ 15 → (encodePair op x).toNat = (4096 * (op.toNat / 16)) ||| x.toNat)

/-- R91: decoding an encoded pair gives it back exactly when the pair is valid; a stack-form byte always comes back,
with the operand cut to 8 bits; a standard-form byte comes back for every operand below 4096, and some byte with an
operand of 4096 does not. -/
def Obligations.DecodeInvertsEncodeExactlyOnValidPairs : Prop :=
  (∀ (op : Byte) (x : Word),
    ((decodePair (encodePair op x)).1 = op ∧ (decodePair (encodePair op x)).2.toNat = x.toNat) ↔
      validPair op x = true) ∧
  (∀ (op : Byte) (x : Word), op.toNat / 16 = 15 →
    (decodePair (encodePair op x)).1 = op ∧ (decodePair (encodePair op x)).2.toNat = x.toNat % 256) ∧
  (∃ (op : Byte) (x : Word), op.toNat / 16 ≠ 15 ∧ op.toNat % 16 = 0 ∧ x.toNat = 4096 ∧
    (decodePair (encodePair op x)).1 ≠ op)

/-- Decoding the word of any instruction gives the instruction back, whatever its operand bits. -/
def Obligations.DecodeOfEncodeIsTheInstruction : Prop :=
  ∀ i : Instr, decode (encode i) = .ok i

/-- Encoding what a word decodes to gives the word back: no bit of a word is dropped, and a word has one meaning. -/
def Obligations.EncodeOfDecodeIsTheWord : Prop :=
  ∀ (w : Word) (i : Instr), decode w = .ok i → encode i = w

/-- R95, R124: the words that decode to no operation are the stack-form words with an odd opcode byte, the rejection
names that byte, and fetching one faults with UndefinedOperation in phase EXECUTE with address 0. -/
def Obligations.OnlyOddStackFormWordsAreUndefined : Prop :=
  ∀ w : Word,
    ((∃ e, decode w = .error e) ↔ (w.toNat / 4096 = 15 ∧ w.toNat / 256 % 2 = 1)) ∧
    (∀ op, decode w = .error (.undefinedOperation op) → op.toNat = w.toNat / 256) ∧
    (∀ s : State, s.Running → memRead s s.pc.toNat = .ok w → w.toNat / 4096 = 15 → w.toNat / 256 % 2 = 1 →
      TakesFault s (step s) 6 0 ∧ stepStatus s = 6)

/-- R87: the decoder's outputs. -/
def Obligations.DecoderPortsNameTheTableRow : Prop :=
  ∀ w : Word,
    (decStack w = true ↔ w.toNat / 4096 = 15) ∧
    decOp w = (decodePair w).1 ∧ decArg w = (decodePair w).2 ∧
    (decStack w = true → (decArg w).toNat < 256) ∧
    (decKnown w = true ↔ (decStack w = false ∨ w.toNat / 256 % 2 = 0)) ∧
    (decStack w = false → (decIndex w).toNat = w.toNat / 4096) ∧
    (decStack w = true → decKnown w = true → (decIndex w).toNat = 15 + w.toNat / 512 % 8) ∧
    (decKnown w = false → decIndex w = 0) ∧
    (∀ i, decode w = .ok i → decKnown w = true ∧ decIndex w = i.index)

/-- Words written out from the patterns of R85 decode to their operations. -/
def Obligations.TableWordsDecodeToTheirOperations : Prop :=
  decode 0b0111000000000101#16 = .ok (.loco 5) ∧ decode 0b0001000001100100#16 = .ok (.stod 100) ∧
  decode 0b0110000000000010#16 = .ok (.jump 2) ∧ decode 0b1000111111111111#16 = .ok (.lodl 4095) ∧
  decode 0b1110111111111111#16 = .ok (.call 4095) ∧ decode 0b1111100010101011#16 = .ok (.retn 171) ∧
  decode 0b1111000011111111#16 = .ok (.pshi 255) ∧ decode 0b1111111011111111#16 = .ok (.desp 255) ∧
  decode 0b1111000100000000#16 = .error (.undefinedOperation 0xF1)

/-- R92: what the unmasked standard-form operand does. -/
def Obligations.WideStandardOperandsReachTheOpcode : Prop :=
  (∀ v : Word, encodePair 0x00 v = v) ∧
  (encodePair 0x10 0x1000 = 0x1000#16 ∧ decode 0x1000#16 = .ok (.stod 0)) ∧
  (encodePair 0x20 0x1005 = 0x3005#16 ∧ decode 0x3005#16 = .ok (.subd 5)) ∧
  (encodePair 0xE0 0x1FFF = 0xFFFF#16 ∧ decode 0xFFFF#16 = .error (.undefinedOperation 0xFF)) ∧
  (encodePair 0x70 5000 = 0x7388#16 ∧ decode 0x7388#16 = .ok (.loco 904))

/-! ### Memory -/

/-- R55: `MemRead` checks the address, then consults the overlay, then the base. -/
def Obligations.MemReadConsultsOverlayThenBase : Prop :=
  ∀ (s : State) (a : Nat),
    (4096 ≤ a → memRead s a = .error (.addressOutOfBounds a)) ∧
    (∀ v, a < 4096 → s.overlay.lookup a = some v → memRead s a = .ok v) ∧
    (a < 4096 → s.overlay.lookup a = none → memRead s a = .ok (baseWord s a))

/-- R56: `MemWrite` checks the address, then the value, then records the value in the overlay and changes nothing else;
a 16-bit value never fails the value check. -/
def Obligations.MemWriteChecksAddressThenValue : Prop :=
  (∀ (s : State) (a v : Nat),
    (4096 ≤ a → memWrite s a v = .error (.addressOutOfBounds a)) ∧
    (a < 4096 → 65535 < v → memWrite s a v = .error (.numberOverflow v)) ∧
    (a < 4096 → v ≤ 65535 →
      ∃ t, memWrite s a v = .ok t ∧ t = { s with overlay := t.overlay } ∧
        t.overlay.lookup a = some (BitVec.ofNat 16 v) ∧ ∀ b, b ≠ a → t.overlay.lookup b = s.overlay.lookup b)) ∧
  (∀ (s : State) (a v : Nat) (w : Word), memWrite s a w.toNat ≠ .error (.numberOverflow v))

/-- R57: a cell reads what was last written to it, however many other cells are written after it (a read changes no
state), and both primitives fault outside memory. -/
def Obligations.ReadReturnsTheLastWrite : Prop :=
  (∀ (s t : State) (a : Nat) (v : Word) (others : List (Nat × Word)), memWrite s a v.toNat = .ok t →
    (∀ c ∈ others, c.1 < 4096 ∧ c.1 ≠ a) →
    ∃ u, others.foldlM (fun r c => memWrite r c.1 c.2.toNat) t = .ok u ∧ memRead u a = .ok v) ∧
  (∀ (s : State) (a v : Nat), 4096 ≤ a →
    memRead s a = .error (.addressOutOfBounds a) ∧ memWrite s a v = .error (.addressOutOfBounds a))

/-! ### The stack pointer -/

/-- R31, R32: a checked decrement tests only the lower bound and a checked increment only the upper one, each on the
exact new value, for a count of 0 too. -/
def Obligations.CheckedMovesOfSpTestOneBound : Prop :=
  ∀ (s : State) (k : Nat), k ≤ 255 →
    (s.sp.toNat < 2048 + k → spDec s k = .error (.stackOverflow s.pcb)) ∧
    (2048 + k ≤ s.sp.toNat → spDec s k = .ok { s with sp := BitVec.ofNat 16 (s.sp.toNat - k) }) ∧
    (4096 < s.sp.toNat + k → spInc s k = .error (.stackUnderflow s.pcb)) ∧
    (s.sp.toNat + k ≤ 4096 → spInc s k = .ok { s with sp := BitVec.ofNat 16 (s.sp.toNat + k) })

/-! ### Direct and immediate instructions -/

/-- R150. -/
def Obligations.LoddLoadsTheDirectCell : Prop :=
  ∀ (a : Operand12) (s : State), encode (.lodd a) = BitVec.ofNat 16 (0x0000 + a.toNat) ∧ (s.InExecute →
    ∃ v, memRead s a.toNat = .ok v ∧
      exec (.lodd a) s = .next { s with ac := v, acv := true, pc := s.pc + 1, fsm := .ready })

/-- R151. -/
def Obligations.StodStoresToTheDirectCell : Prop :=
  ∀ (a : Operand12) (s : State), encode (.stod a) = BitVec.ofNat 16 (0x1000 + a.toNat) ∧ (s.InExecute →
    (s.acv = true → ∃ t, exec (.stod a) s = .next t ∧
      t = { s with overlay := s.overlay.write a.toNat s.ac, pc := s.pc + 1, fsm := .ready } ∧
      memRead t a.toNat = .ok s.ac ∧ ∀ b, b ≠ a.toNat → memRead t b = memRead s b) ∧
    (s.acv = false → TakesFault s (exec (.stod a) s) 7 0))

/-- R152. -/
def Obligations.LocoLoadsTheConstant : Prop :=
  ∀ (a : Operand12) (s : State), encode (.loco a) = BitVec.ofNat 16 (0x7000 + a.toNat) ∧ (s.InExecute →
    exec (.loco a) s =
      .next { s with ac := BitVec.ofNat 16 a.toNat, acv := true, pc := s.pc + 1, fsm := .ready })

/-- R153. -/
def Obligations.AdddAddsTheDirectCell : Prop :=
  ∀ (a : Operand12) (s : State), encode (.addd a) = BitVec.ofNat 16 (0x2000 + a.toNat) ∧ (s.InExecute →
    (s.acv = true → ∃ v, memRead s a.toNat = .ok v ∧
      exec (.addd a) s = .next { s with
        ac := BitVec.ofNat 16 ((s.ac.toNat + v.toNat) % 65536), pc := s.pc + 1, fsm := .ready }) ∧
    (s.acv = false → TakesFault s (exec (.addd a) s) 7 0))

/-- R154. -/
def Obligations.SubdSubtractsTheDirectCell : Prop :=
  ∀ (a : Operand12) (s : State), encode (.subd a) = BitVec.ofNat 16 (0x3000 + a.toNat) ∧ (s.InExecute →
    (s.acv = true → ∃ v, memRead s a.toNat = .ok v ∧
      exec (.subd a) s = .next { s with
        ac := BitVec.ofInt 16 (((s.ac.toNat : Int) - v.toNat) % 65536), pc := s.pc + 1, fsm := .ready }) ∧
    (s.acv = false → TakesFault s (exec (.subd a) s) 7 0))

/-! ### Jumps -/

/-- R160: a jump to another address sets `pc`; a self-jump sets the halt flag and is advanced; `ac` is not read. -/
def Obligations.JumpTransfersAndSelfJumpHalts : Prop :=
  ∀ (a : Operand12) (s : State), encode (.jump a) = BitVec.ofNat 16 (0x6000 + a.toNat) ∧ (s.InExecute →
    (a.toNat ≠ s.pc.toNat → exec (.jump a) s = .next { s with pc := a.setWidth 16, fsm := .ready }) ∧
    (a.toNat = s.pc.toNat → ∃ t, exec (.jump a) s = .next t ∧
      t = { s with ended := true, pc := s.pc + 1, fsm := .halted } ∧ step t = .next t ∧ stepStatus t = 8))

/-- R161. -/
def Obligations.JzerJumpsOnZero : Prop :=
  ∀ (a : Operand12) (s : State), encode (.jzer a) = BitVec.ofNat 16 (0x5000 + a.toNat) ∧ (s.InExecute →
    (s.acv = true → exec (.jzer a) s = .next { s with
      pc := if s.ac.toNat = 0 ∧ a.toNat ≠ s.pc.toNat then a.setWidth 16 else s.pc + 1, fsm := .ready }) ∧
    (s.acv = false → TakesFault s (exec (.jzer a) s) 7 0))

/-- R162. -/
def Obligations.JnzeJumpsOnNonzero : Prop :=
  ∀ (a : Operand12) (s : State), encode (.jnze a) = BitVec.ofNat 16 (0xD000 + a.toNat) ∧ (s.InExecute →
    (s.acv = true → exec (.jnze a) s = .next { s with
      pc := if s.ac.toNat ≠ 0 ∧ a.toNat ≠ s.pc.toNat then a.setWidth 16 else s.pc + 1, fsm := .ready }) ∧
    (s.acv = false → TakesFault s (exec (.jnze a) s) 7 0))

/-- R163. -/
def Obligations.JnegJumpsOnNegative : Prop :=
  ∀ (a : Operand12) (s : State), encode (.jneg a) = BitVec.ofNat 16 (0xC000 + a.toNat) ∧ (s.InExecute →
    (s.acv = true → exec (.jneg a) s = .next { s with
      pc := if s.ac.toInt < 0 ∧ a.toNat ≠ s.pc.toNat then a.setWidth 16 else s.pc + 1, fsm := .ready }) ∧
    (s.acv = false → TakesFault s (exec (.jneg a) s) 7 0))

/-- R164. -/
def Obligations.JposJumpsOnZeroOrPositive : Prop :=
  ∀ (a : Operand12) (s : State), encode (.jpos a) = BitVec.ofNat 16 (0x4000 + a.toNat) ∧ (s.InExecute →
    (s.acv = true → exec (.jpos a) s = .next { s with
      pc := if 0 ≤ s.ac.toInt ∧ a.toNat ≠ s.pc.toNat then a.setWidth 16 else s.pc + 1, fsm := .ready }) ∧
    (s.acv = false → TakesFault s (exec (.jpos a) s) 7 0))

/-! ### Frame-relative instructions -/

/-- R171. -/
def Obligations.LodlLoadsTheLocalCell : Prop :=
  ∀ (a : Operand12) (s : State), encode (.lodl a) = BitVec.ofNat 16 (0x8000 + a.toNat) ∧ (s.InExecute →
    (4096 ≤ s.sp.toNat + a.toNat → TakesFault s (exec (.lodl a) s) 1 (s.sp.toNat + a.toNat)) ∧
    (s.sp.toNat + a.toNat < 4096 → ∃ v, memRead s (s.sp.toNat + a.toNat) = .ok v ∧
      exec (.lodl a) s = .next { s with ac := v, acv := true, pc := s.pc + 1, fsm := .ready }))

/-- R172: the address check comes before the accumulator check. -/
def Obligations.StolStoresToTheLocalCell : Prop :=
  ∀ (a : Operand12) (s : State), encode (.stol a) = BitVec.ofNat 16 (0x9000 + a.toNat) ∧ (s.InExecute →
    (4096 ≤ s.sp.toNat + a.toNat → TakesFault s (exec (.stol a) s) 1 (s.sp.toNat + a.toNat)) ∧
    (s.sp.toNat + a.toNat < 4096 → s.acv = false → TakesFault s (exec (.stol a) s) 7 0) ∧
    (s.sp.toNat + a.toNat < 4096 → s.acv = true → ∃ t, exec (.stol a) s = .next t ∧
      t = { s with overlay := s.overlay.write (s.sp.toNat + a.toNat) s.ac, pc := s.pc + 1, fsm := .ready } ∧
      memRead t (s.sp.toNat + a.toNat) = .ok s.ac ∧
      ∀ b, b ≠ s.sp.toNat + a.toNat → memRead t b = memRead s b))

/-- R173: the address check comes before the accumulator check. -/
def Obligations.AddlAddsTheLocalCell : Prop :=
  ∀ (a : Operand12) (s : State), encode (.addl a) = BitVec.ofNat 16 (0xA000 + a.toNat) ∧ (s.InExecute →
    (4096 ≤ s.sp.toNat + a.toNat → TakesFault s (exec (.addl a) s) 1 (s.sp.toNat + a.toNat)) ∧
    (s.sp.toNat + a.toNat < 4096 → s.acv = false → TakesFault s (exec (.addl a) s) 7 0) ∧
    (s.sp.toNat + a.toNat < 4096 → s.acv = true → ∃ v, memRead s (s.sp.toNat + a.toNat) = .ok v ∧
      exec (.addl a) s = .next { s with
        ac := BitVec.ofNat 16 ((s.ac.toNat + v.toNat) % 65536), pc := s.pc + 1, fsm := .ready }))

/-- R174: the address check comes before the accumulator check. -/
def Obligations.SublSubtractsTheLocalCell : Prop :=
  ∀ (a : Operand12) (s : State), encode (.subl a) = BitVec.ofNat 16 (0xB000 + a.toNat) ∧ (s.InExecute →
    (4096 ≤ s.sp.toNat + a.toNat → TakesFault s (exec (.subl a) s) 1 (s.sp.toNat + a.toNat)) ∧
    (s.sp.toNat + a.toNat < 4096 → s.acv = false → TakesFault s (exec (.subl a) s) 7 0) ∧
    (s.sp.toNat + a.toNat < 4096 → s.acv = true → ∃ v, memRead s (s.sp.toNat + a.toNat) = .ok v ∧
      exec (.subl a) s = .next { s with
        ac := BitVec.ofInt 16 (((s.ac.toNat : Int) - v.toNat) % 65536), pc := s.pc + 1, fsm := .ready }))

/-! ### Call and return -/

/-- R180. -/
def Obligations.CallPushesTheReturnAddress : Prop :=
  ∀ (a : Operand12) (s : State), encode (.call a) = BitVec.ofNat 16 (0xE000 + a.toNat) ∧ (s.InExecute →
    (99 ≤ s.depth.toNat → TakesFault s (exec (.call a) s) 5 0) ∧
    (s.depth.toNat ≤ 98 → s.sp.toNat ≤ 2048 → TakesFault s (exec (.call a) s) 3 0) ∧
    (s.depth.toNat ≤ 98 → 4097 ≤ s.sp.toNat → TakesFault s (exec (.call a) s) 1 (s.sp.toNat - 1)) ∧
    (s.depth.toNat ≤ 98 → 2049 ≤ s.sp.toNat → s.sp.toNat ≤ 4096 → ∃ t, exec (.call a) s = .next t ∧
      t = { s with
        depth := s.depth + 1, sp := s.sp - 1, overlay := s.overlay.write (s.sp.toNat - 1) (s.pc + 1),
        pc := if a.toNat = s.pc.toNat then s.pc + 1 else a.setWidth 16, fsm := .ready } ∧
      memRead t (s.sp.toNat - 1) = .ok (s.pc + 1) ∧ ∀ b, b ≠ s.sp.toNat - 1 → memRead t b = memRead s b))

/-- R181, R183: the depth check comes first; `sp` is then checked only by the read. -/
def Obligations.RetnPopsTheProgramCounter : Prop :=
  ∀ (x : Byte) (s : State), encode (.retn x) = BitVec.ofNat 16 (0xF800 + x.toNat) ∧ (s.InExecute →
    (s.depth.toNat = 0 → TakesFault s (exec (.retn x) s) 4 0) ∧
    (1 ≤ s.depth.toNat → 4096 ≤ s.sp.toNat → TakesFault s (exec (.retn x) s) 1 s.sp.toNat) ∧
    (1 ≤ s.depth.toNat → s.sp.toNat < 4096 → ∃ v, memRead s s.sp.toNat = .ok v ∧
      exec (.retn x) s = .next { s with
        depth := s.depth - 1, sp := s.sp + 1, pc := if v = s.pc then s.pc + 1 else v, fsm := .ready }))

/-! ### Stack instructions -/

/-- R190: the push; and a POP that finds `sp` and the pushed cell as the push left them restores `sp` and `ac`. -/
def Obligations.PushStoresTheAccumulator : Prop :=
  ∀ (x : Byte) (s : State), encode (.push x) = BitVec.ofNat 16 (0xF400 + x.toNat) ∧ (s.InExecute →
    (s.sp.toNat ≤ 2048 → TakesFault s (exec (.push x) s) 3 0) ∧
    (4097 ≤ s.sp.toNat → TakesFault s (exec (.push x) s) 1 (s.sp.toNat - 1)) ∧
    (2049 ≤ s.sp.toNat → s.sp.toNat ≤ 4096 → s.acv = false → TakesFault s (exec (.push x) s) 7 0) ∧
    (2049 ≤ s.sp.toNat → s.sp.toNat ≤ 4096 → s.acv = true → ∃ t, exec (.push x) s = .next t ∧
      t = { s with
        sp := s.sp - 1, overlay := s.overlay.write (s.sp.toNat - 1) s.ac, pc := s.pc + 1, fsm := .ready } ∧
      memRead t (s.sp.toNat - 1) = .ok s.ac ∧ (∀ b, b ≠ s.sp.toNat - 1 → memRead t b = memRead s b) ∧
      ∀ (y : Byte) (u : State), u.InExecute → u.sp = t.sp → memRead u u.sp.toNat = memRead t t.sp.toNat →
        ∃ r, exec (.pop y) u = .next r ∧ r.faulted = false ∧ r.ac = s.ac ∧ r.acv = true ∧ r.sp = s.sp))

/-- R191. -/
def Obligations.PopLoadsTheAccumulator : Prop :=
  ∀ (x : Byte) (s : State), encode (.pop x) = BitVec.ofNat 16 (0xF600 + x.toNat) ∧ (s.InExecute →
    (4096 ≤ s.sp.toNat → TakesFault s (exec (.pop x) s) 1 s.sp.toNat) ∧
    (s.sp.toNat < 4096 → ∃ v, memRead s s.sp.toNat = .ok v ∧
      exec (.pop x) s = .next { s with
        ac := v, acv := true, sp := s.sp + 1, pc := s.pc + 1, fsm := .ready }))

/-- R192. -/
def Obligations.PshiPushesALowCell : Prop :=
  ∀ (b : Byte) (s : State), encode (.pshi b) = BitVec.ofNat 16 (0xF000 + b.toNat) ∧ (s.InExecute →
    (s.sp.toNat ≤ 2048 → TakesFault s (exec (.pshi b) s) 3 0) ∧
    (4097 ≤ s.sp.toNat → TakesFault s (exec (.pshi b) s) 1 (s.sp.toNat - 1)) ∧
    (2049 ≤ s.sp.toNat → s.sp.toNat ≤ 4096 → ∃ v t, memRead s b.toNat = .ok v ∧ exec (.pshi b) s = .next t ∧
      t = { s with
        sp := s.sp - 1, overlay := s.overlay.write (s.sp.toNat - 1) v, pc := s.pc + 1, fsm := .ready } ∧
      memRead t (s.sp.toNat - 1) = .ok v ∧ ∀ c, c ≠ s.sp.toNat - 1 → memRead t c = memRead s c))

/-- R193. -/
def Obligations.PopiPopsIntoALowCell : Prop :=
  ∀ (b : Byte) (s : State), encode (.popi b) = BitVec.ofNat 16 (0xF200 + b.toNat) ∧ (s.InExecute →
    (4096 ≤ s.sp.toNat → TakesFault s (exec (.popi b) s) 1 s.sp.toNat) ∧
    (s.sp.toNat < 4096 → ∃ v t, memRead s s.sp.toNat = .ok v ∧ exec (.popi b) s = .next t ∧
      t = { s with sp := s.sp + 1, overlay := s.overlay.write b.toNat v, pc := s.pc + 1, fsm := .ready } ∧
      memRead t b.toNat = .ok v ∧ ∀ c, c ≠ b.toNat → memRead t c = memRead s c))

/-- R194: no bounds check, and two SWAPs in a row restore both registers. -/
def Obligations.SwapExchangesAcAndSp : Prop :=
  ∀ (x : Byte) (s : State), encode (.swap x) = BitVec.ofNat 16 (0xFA00 + x.toNat) ∧ (s.InExecute →
    (s.acv = false → TakesFault s (exec (.swap x) s) 7 0) ∧
    (s.acv = true → exec (.swap x) s =
        .next { s with sp := s.ac, ac := s.sp, pc := s.pc + 1, fsm := .ready } ∧
      ∀ y u, exec (.swap x) s = .next u → ∃ r, exec (.swap y) { u with pcb := u.pc } = .next r ∧
        r.sp = s.sp ∧ r.ac = s.ac))

/-- R195: the check applies to the current `sp` for a count of 0 too. -/
def Obligations.InspIncrementsSp : Prop :=
  ∀ (b : Byte) (s : State), encode (.insp b) = BitVec.ofNat 16 (0xFC00 + b.toNat) ∧ (s.InExecute →
    (4097 ≤ s.sp.toNat + b.toNat → TakesFault s (exec (.insp b) s) 4 0) ∧
    (s.sp.toNat + b.toNat ≤ 4096 → exec (.insp b) s = .next { s with
      sp := BitVec.ofNat 16 (s.sp.toNat + b.toNat), pc := s.pc + 1, fsm := .ready }))

/-- R196: the check applies to the current `sp` for a count of 0 too, and is one-sided. -/
def Obligations.DespDecrementsSp : Prop :=
  ∀ (b : Byte) (s : State), encode (.desp b) = BitVec.ofNat 16 (0xFE00 + b.toNat) ∧ (s.InExecute →
    (s.sp.toNat < 2048 + b.toNat → TakesFault s (exec (.desp b) s) 3 0) ∧
    (2048 + b.toNat ≤ s.sp.toNat → exec (.desp b) s = .next { s with
      sp := BitVec.ofNat 16 (s.sp.toNat - b.toNat), pc := s.pc + 1, fsm := .ready }))

/-! ### The step -/

/-- R121: the step of a running machine is `exec` of the decoded instruction, in the state FETCH and DECODE leave, and
that state is one in which a body starts. The advance of `pc` is part of `exec`. -/
def Obligations.StepRunsTheDecodedInstruction : Prop :=
  ∀ (s : State) (w : Word) (i : Instr), s.Running → memRead s s.pc.toNat = .ok w → decode w = .ok i →
    step s = exec i { s with pcb := s.pc, ir := w, fsm := .execute } ∧
    ({ s with pcb := s.pc, ir := w, fsm := .execute } : State).InExecute

/-- R122: a step requested while `end` is set is answered ProgramCompleted (code 8) and changes nothing. -/
def Obligations.HaltedStepAnswersProgramCompleted : Prop :=
  ∀ s : State, s.Halted → step s = .next s ∧ stepStatus s = 8

/-- R213: a faulted machine answers every step request with its latched code and changes nothing; reset leaves FAULT. -/
def Obligations.FaultedStepIsRefusedUntilReset : Prop :=
  ∀ s : State, s.Faulted → step s = .next s ∧ stepStatus s = s.faultCode ∧ (applyReset s).RecordClear ∧
    (applyReset s).fsm = .ready

/-- R123: the fetch reads the cell at `pc` through the overlay; at or beyond 4096 the step faults in phase FETCH with
that address. -/
def Obligations.FetchReadsTheCellAtPcOrFaults : Prop :=
  ∀ s : State, s.Running →
    (∀ w, memRead s s.pc.toNat = .ok w → fetch s = .ok { s with pcb := s.pc, ir := w, fsm := .decode }) ∧
    (s.pc.toNat < 4096 → ∃ w, memRead s s.pc.toNat = .ok w) ∧
    (4096 ≤ s.pc.toNat →
      ∃ t, step s = .next t ∧ t.faulted = true ∧ t.faultCode = 1 ∧ t.faultPhase = .fetch ∧ t.faultPc = s.pc ∧
        t.faultAddr.toNat = s.pc.toNat ∧ t.fsm = .fault ∧ stepStatus s = 1)

/-- R127: a step that raises no fault goes to READY, or to HALTED when the body set `end`; one that raises a fault goes
to FAULT; and in FAULT a step request changes nothing and is answered with the latched code, until reset. -/
def Obligations.StepOutcomeFollowsTheFlags : Prop :=
  (∀ s t : State, s.Running → step s = .next t →
    (t.faulted = false → t.ended = false → t.fsm = .ready ∧ stepStatus s = 0) ∧
    (t.faulted = false → t.ended = true → t.fsm = .halted ∧ stepStatus s = 0) ∧
    (t.faulted = true → t.fsm = .fault ∧ stepStatus s = t.faultCode)) ∧
  (∀ s : State, s.Faulted → step s = .next s ∧ stepStatus s = s.faultCode ∧ (applyReset s).Running)

/-- R210: fault entry writes the record and enters FAULT; the base is kept. In a step, the phase is FETCH exactly when
the fetch raised the fault, `fault_pc` is the address of the step's instruction, and the step's status is the code. -/
def Obligations.FaultEntryWritesTheRecord : Prop :=
  (∀ (phase : Phase) (f : Fault) (s : State),
    (faultEntry phase f s).faulted = true ∧ (faultEntry phase f s).faultCode = f.code ∧
    (faultEntry phase f s).faultPhase = phase ∧ (faultEntry phase f s).faultPc = s.pcb ∧
    (∀ a, f = .addressOutOfBounds a → (faultEntry phase f s).faultAddr = BitVec.ofNat 17 a) ∧
    ((∀ a, f ≠ .addressOutOfBounds a) → (faultEntry phase f s).faultAddr = 0) ∧
    (faultEntry phase f s).fsm = .fault ∧ (faultEntry phase f s).base = s.base) ∧
  (∀ s t : State, s.Running → step s = .next t → t.faulted = true →
    (t.faultPhase = .fetch ↔ 4096 ≤ s.pc.toNat) ∧ t.faultPc = s.pc ∧ stepStatus s = t.faultCode)

/-- R121, R53, R41: every step request is answered by a next state; no step changes the base; and a step that does not
end in FAULT leaves the fault record as it was. -/
def Obligations.EveryStepAnswersAndKeepsTheBase : Prop :=
  ∀ s : State, ∃ t, step s = .next t ∧ t.base = s.base ∧
    (t.faulted = false → s.faulted = false ∧ t.faultCode = s.faultCode ∧ t.faultPhase = s.faultPhase ∧
      t.faultPc = s.faultPc ∧ t.faultAddr = s.faultAddr)

/-- The invariant of the step boundary is kept by every step: the overlay stays canonical and inside memory (R50), the
base stays within memory (R51, R53), `depth` stays in [0, 100) (R37), the fault record stays clear or as fault entry
writes it (so NumberOverflow and the reserved codes never occur, R201, R203), and the step machine is in the state of
its flags (R120, R127). Two clauses are the model's: that the overlay is a strictly rising list is its form in log 1
(DEDUCED), and that it is so after a fault too is the choice of log 4 (DESIGN CHOICE, `Memory.ofCells`), where R44
leaves the cells open. -/
def Obligations.StepKeepsTheBoundaryConditions : Prop :=
  ∀ s t : State, s.Inv → step s = .next t → t.Inv

/-- The launch state over any image that fits meets the invariant, the reset state among them. -/
def Obligations.LaunchMeetsTheBoundaryConditions : Prop :=
  (∀ image : List Word, imageFits image = true → (State.launch image).Inv) ∧ State.reset.Inv

/-- R126: how every instruction leaves `pc`. A transfer to another address goes there; everything else, a transfer to
its own address too, goes on to the next address; from 4095 that is 4096, where the next fetch faults. -/
def Obligations.EveryInstructionAdvancesOrTransfers : Prop :=
  ∀ (i : Instr) (s t : State), s.InExecute → exec i s = .next t → t.faulted = false →
    (transferTarget s i = none → t.pc = s.pc + 1) ∧
    (∀ d, transferTarget s i = some d → d ≠ s.pc → t.pc = d) ∧
    (transferTarget s i = some s.pc → t.pc = s.pc + 1) ∧
    (s.pc.toNat = 4095 → t.pc = s.pc + 1 → t.pc.toNat = 4096 ∧ (t.ended = false → stepStatus t = 1))

/-- R24: the accumulator-valid bit. Reset clears it, every writer of `ac` sets it, no instruction clears it; the others
leave `ac` alone, and a reader completes only when it is set. -/
def Obligations.AccumulatorValidBitFollowsItsWriters : Prop :=
  (∀ s : State, (applyReset s).acv = false) ∧
  (∀ (i : Instr) (s t : State), s.InExecute → exec i s = .next t → t.faulted = false →
    (writesAc i = true → t.acv = true) ∧ (writesAc i = false → t.ac = s.ac ∧ t.acv = s.acv) ∧
    (s.acv = true → t.acv = true) ∧ (readsAc i = true → s.acv = true))

/-- R37: only CALL and RETN move `depth`, and it stays below 100. -/
def Obligations.OnlyCallAndReturnMoveDepth : Prop :=
  ∀ (i : Instr) (s t : State), s.InExecute → s.depth.toNat < 100 → exec i s = .next t → t.faulted = false →
    t.depth.toNat < 100 ∧
    (∀ a, i = .call a → t.depth.toNat = s.depth.toNat + 1) ∧
    (∀ x, i = .retn x → t.depth.toNat + 1 = s.depth.toNat) ∧
    ((∀ a, i ≠ .call a) → (∀ x, i ≠ .retn x) → t.depth = s.depth)

/-- R39: the halt flag. Reset clears it; a running machine sets it exactly when it executes a JUMP to its own address;
and while it is set every step is answered ProgramCompleted, nothing being fetched or changed. -/
def Obligations.OnlyASelfJumpSetsTheHaltFlag : Prop :=
  (∀ s : State, (applyReset s).ended = false) ∧
  (∀ s t : State, s.Running → step s = .next t → t.faulted = false →
    (t.ended = true ↔
      ∃ w a, memRead s s.pc.toNat = .ok w ∧ decode w = .ok (.jump a) ∧ a.toNat = s.pc.toNat)) ∧
  (∀ s : State, s.Halted → step s = .next s ∧ stepStatus s = 8)

/-- R198: over any number of steps none of which executes a SWAP, `sp` stays in [2048, 4096] as long as the machine has
not faulted; and every push of a machine whose `sp` is there writes a cell in 2048..4095. -/
def Obligations.SpStaysInRangeWithoutSwap : Prop :=
  (∀ (n : Nat) (s : State), SpInRange s.sp → (∀ k < n, ¬ ExecutesSwap (stepState^[k] s)) →
    (stepState^[n] s).faulted = false → SpInRange (stepState^[n] s).sp) ∧
  (∀ (i : Instr) (s t : State), SpInRange s.sp → s.InExecute → exec i s = .next t → t.faulted = false →
    ((∃ x, i = .push x) ∨ (∃ b, i = .pshi b) ∨ (∃ a, i = .call a)) →
    ∃ c, storeAddress s i = some c ∧ 2048 ≤ c ∧ c ≤ 4095)

/-- R64: an instruction writes at most the one cell the table of accesses gives it; every other cell, and every cell of
an instruction that stores nothing, reads as before. -/
def Obligations.InstructionsWriteOnlyTheirOneCell : Prop :=
  ∀ (i : Instr) (s t : State), s.InExecute → exec i s = .next t → t.faulted = false →
    (∀ b, storeAddress s i ≠ some b → memRead t b = memRead s b) ∧
    (∀ a, storeAddress s i = some a → a < 4096 ∧ ∃ v, memRead t a = .ok v ∧ t.overlay.lookup a = some v)

/-- R212: an instruction's body raises only the faults the table gives it. -/
def Obligations.FaultsComeFromTheirInstructions : Prop :=
  ∀ (i : Instr) (s t : State), s.InExecute → exec i s = .next t → t.faulted = true →
    t.faultCode ∈ faultCodes i ∧ t.faultPhase = .execute ∧ t.faultPc = s.pc ∧
    (t.faultCode ≠ 1 → t.faultAddr = 0) ∧ (t.faultCode = 1 → 4096 ≤ t.faultAddr.toNat)

/-- U1: the bits of an unset accumulator are never observed. Two runs of an instruction that differ only in them take
the same fault, or complete in states that again differ at most in them. -/
def Obligations.UnsetAccumulatorBitsAreNeverSeen : Prop :=
  ∀ (i : Instr) (s t u : State) (x : Word), s.InExecute → s.acv = false → exec i s = .next t →
    exec i { s with ac := x } = .next u →
    t.faulted = u.faulted ∧ t.faultCode = u.faultCode ∧ t.faultPhase = u.faultPhase ∧ t.faultPc = u.faultPc ∧
    t.faultAddr = u.faultAddr ∧
    (t.faulted = false → (t.acv = true → u = t) ∧ (t.acv = false → u = { t with ac := x }))

/-- R237: a store is seen by the next fetch of its address, with nothing in between. -/
def Obligations.StoreIsSeenByTheNextFetch : Prop :=
  ∀ (s t : State) (a : Nat) (v : Word), memWrite s a v.toNat = .ok t → t.pc.toNat = a → t.Running →
    (∃ u, fetch t = .ok u ∧ u.ir = v) ∧
    ∀ i, decode v = .ok i → step t = exec i { t with pcb := t.pc, ir := v, fsm := .execute }

/-- R184: the call and return round trip. `u` is any state in which the subroutine executes its RETN. -/
def Obligations.CallThenReturnResumesAfterTheCall : Prop :=
  ∀ (a : Operand12) (x : Byte) (s t u : State), s.InExecute → a.toNat ≠ s.pc.toNat → s.depth.toNat ≤ 98 →
    2049 ≤ s.sp.toNat → s.sp.toNat ≤ 4096 → exec (.call a) s = .next t →
    u.InExecute → u.sp = t.sp → u.depth = t.depth → memRead u u.sp.toNat = memRead t t.sp.toNat →
    u.pc ≠ s.pc + 1 →
    t.pc = a.setWidth 16 ∧
    ∃ r, exec (.retn x) u = .next r ∧ r.faulted = false ∧ r.pc = s.pc + 1 ∧ r.sp = s.sp ∧ r.depth = s.depth

/-- R230: reset, from any state; and (20_memory.md R53) every cell then reads its base value. -/
def Obligations.ResetRestoresEverythingButTheBase : Prop :=
  ∀ s : State, (applyReset s).pc = 0 ∧ (applyReset s).sp = 4096 ∧ (applyReset s).acv = false ∧
    (applyReset s).depth = 0 ∧ (applyReset s).ended = false ∧ (applyReset s).overlay = [] ∧
    (applyReset s).base = s.base ∧ (applyReset s).RecordClear ∧ (applyReset s).fsm = .ready ∧
    ∀ a, a < 4096 → memRead (applyReset s) a = .ok (baseWord s a)

/-- R129: a bounded `run()` that returned has ended, and a larger bound changes nothing; it returns OK exactly at a
halted machine, and otherwise the code that the fault latched; a program that has ended fails at entry. The bound is
that of D30. For a faulted machine, whose `end` is unspecified (R44), the last clause is the model's choice of log 11
(DEDUCED: R129's pseudocode tests `end` first and does not mention `faulted`). -/
def Obligations.RunReturnsAtTheEndOfTheProgram : Prop :=
  (∀ (n m : Nat) (s t : State) (c : BitVec 4), run n s = (.returned c, t) → n ≤ m → run m s = (.returned c, t)) ∧
  (∀ (n : Nat) (s t : State) (c : BitVec 4), s.Running → run n s = (.returned c, t) →
    (c = 0 ↔ t.Halted) ∧ (c ≠ 0 → t.faulted = true ∧ t.faultCode = c)) ∧
  (∀ (n : Nat) (s : State), s.ended = true → run n s = (.returned 8, s))

/-! ### The assembler -/

/-- R104, R107, R108: an assembled program has at most 4096 words, every label names the address of one of its words,
and label names are unique. -/
def Obligations.AssembledLabelsAreUniqueProgramAddresses : Prop :=
  ∀ (source : List Assembler.Text) (p : Assembler.Program), Assembler.assemble source = .ok p →
    imageFits p.words = true ∧ (∀ b ∈ p.symbols, b.2 < p.words.length) ∧ (p.symbols.map Prod.fst).Nodup

/-- R101, R102: comments, and the directives in them, have no effect on the words and the symbols assembled. -/
def Obligations.CommentsDoNotReachTheWords : Prop :=
  ∀ (source : List Assembler.Text) (p : Assembler.Program), Assembler.assemble source = .ok p →
    ∃ q, Assembler.assemble (source.map fun t => (Assembler.splitComment false t).1) = .ok q ∧
      q.words = p.words ∧ q.symbols = p.symbols

/-- R109: patching in a label's address keeps the opcode of the word pass 1 encoded, and makes the operand the address,
cut to 8 bits in stack form. -/
def Obligations.PatchingKeepsTheOpcode : Prop :=
  ∀ (op : Byte) (addr : Nat), addr < 4096 → (op.toNat / 16 = 15 ∨ op.toNat % 16 = 0) →
    (decodePair (Assembler.patchWord (encodePair op 0) addr)).1 = op ∧
    (decodePair (Assembler.patchWord (encodePair op 0) addr)).2.toNat =
      if op.toNat / 16 = 15 then addr % 256 else addr
end

