-- ==== Sys2Proof/Laws/Memory.lean ====
section
/-! SUPPORT. The laws of the overlay (20_memory.md R52, R57): read after write, and the canonical form, which every
operation keeps. -/

namespace Sys2Proof.Machine

@[simp] theorem memSize_eq : Config.memSize = 4096 := rfl

@[simp] theorem wordMax_eq : Config.wordMax = 65535 := rfl

@[simp] theorem stackFloor_eq : Config.stackFloor = 2048 := rfl

@[simp] theorem stackEmpty_eq : Config.stackEmpty = 4096 := rfl

@[simp] theorem depthMax_eq : Config.depthMax = 100 := rfl

@[simp] theorem Memory.lookup_nil (a : Nat) : Memory.lookup [] a = none := rfl

@[simp] theorem Memory.lookup_write_same (m : Memory) (a : Nat) (v : Word) : (m.write a v).lookup a = some v := by
  fun_induction Memory.write m a v <;> simp_all [Memory.lookup]

theorem Memory.lookup_write_other (m : Memory) {a b : Nat} (v : Word) (h : b ≠ a) :
    (m.write a v).lookup b = m.lookup b := by
  fun_induction Memory.write m a v <;> simp_all [Memory.lookup]

/-- The cells of a written overlay: the new one, and old ones. -/
theorem Memory.mem_write {m : Memory} {a : Nat} {v : Word} {c : Nat × Word} (h : c ∈ m.write a v) :
    c = (a, v) ∨ c ∈ m := by
  fun_induction Memory.write m a v <;> grind

theorem Memory.wf_nil : Memory.wf [] := by simp [Memory.wf]

/-- A write inside memory keeps the canonical form. -/
theorem Memory.wf_write {m : Memory} {a : Nat} (v : Word) (hm : m.wf) (ha : a < Config.memSize) :
    (m.write a v).wf := by
  refine ⟨?_, fun c hc => ?_⟩
  · have hp := hm.1
    clear hm
    induction m with
    | nil => simp [Memory.write]
    | cons d rest ih =>
      rw [List.pairwise_cons] at hp
      unfold Memory.write
      split_ifs with h1 h2
      · grind [List.pairwise_cons]
      · grind [List.pairwise_cons]
      · refine List.pairwise_cons.2 ⟨fun c hc => ?_, ih hp.2⟩
        rcases Memory.mem_write hc with rfl | hc
        · show d.1 < a
          omega
        · exact hp.1 c hc
  · rcases Memory.mem_write hc with rfl | hc
    · exact ha
    · exact hm.2 c hc

/-- Any listed contents give a canonical overlay. -/
theorem Memory.wf_ofCells (cells : List (Nat × Word)) : (Memory.ofCells cells).wf := by
  fun_induction Memory.ofCells cells with
  | case1 => exact Memory.wf_nil
  | case2 a v rest h ih => exact Memory.wf_write v ih h
  | case3 a v rest h ih => exact ih

theorem Memory.lookup_eq_none_of_forall_lt {m : Memory} {a : Nat} (h : ∀ c ∈ m, a < c.1) : m.lookup a = none := by
  induction m with
  | nil => rfl
  | cons d rest ih =>
    have hd : a < d.1 := h d (by simp)
    simp only [Memory.lookup]
    rw [if_neg (by omega)]
    exact ih fun c hc => h c (by simp [hc])

/-- Canonical overlays that read alike are equal data. -/
theorem Memory.eq_of_lookup_eq {m n : Memory} (hm : m.wf) (hn : n.wf) (h : ∀ a, m.lookup a = n.lookup a) : m = n := by
  replace hm := hm.1
  replace hn := hn.1
  induction m generalizing n with
  | nil =>
    cases n with
    | nil => rfl
    | cons d n => have := h d.1; simp [Memory.lookup] at this
  | cons c m ih =>
    cases n with
    | nil => have := h c.1; simp [Memory.lookup] at this
    | cons d n =>
      rw [List.pairwise_cons] at hm hn
      have key : c.1 = d.1 := by
        rcases Nat.lt_trichotomy c.1 d.1 with lt | eq | gt
        · have h1 : Memory.lookup (d :: n) c.1 = none :=
            Memory.lookup_eq_none_of_forall_lt (by grind)
          have h2 := h c.1
          rw [h1] at h2
          simp [Memory.lookup] at h2
        · exact eq
        · have h1 : Memory.lookup (c :: m) d.1 = none :=
            Memory.lookup_eq_none_of_forall_lt (by grind)
          have h2 := h d.1
          rw [h1] at h2
          simp [Memory.lookup] at h2
      have hval := h c.1
      obtain ⟨a, v⟩ := c
      obtain ⟨b, w⟩ := d
      simp only at key
      subst key
      simp [Memory.lookup] at hval
      subst hval
      congr 1
      refine ih (fun x => ?_) hm.2 hn.2
      by_cases hx : x = a
      · subst hx
        rw [Memory.lookup_eq_none_of_forall_lt hm.1, Memory.lookup_eq_none_of_forall_lt hn.1]
      · simpa [Memory.lookup, hx] using h x

end Sys2Proof.Machine
end

