-- ==== Sys2Proof/Laws/State.lean ====
section
/-! SUPPORT. One lemma per field per named update of the state, each true by unfolding the update once. -/

namespace Sys2Proof.Machine

/-! ### setAc -/

@[simp] theorem setAc_pc (s : State) (v : Word) : (setAc s v).pc = s.pc := rfl
@[simp] theorem setAc_sp (s : State) (v : Word) : (setAc s v).sp = s.sp := rfl
@[simp] theorem setAc_ac (s : State) (v : Word) : (setAc s v).ac = v := rfl
@[simp] theorem setAc_acv (s : State) (v : Word) : (setAc s v).acv = true := rfl
@[simp] theorem setAc_depth (s : State) (v : Word) : (setAc s v).depth = s.depth := rfl
@[simp] theorem setAc_ended (s : State) (v : Word) : (setAc s v).ended = s.ended := rfl
@[simp] theorem setAc_overlay (s : State) (v : Word) : (setAc s v).overlay = s.overlay := rfl
@[simp] theorem setAc_base (s : State) (v : Word) : (setAc s v).base = s.base := rfl
@[simp] theorem setAc_faulted (s : State) (v : Word) : (setAc s v).faulted = s.faulted := rfl
@[simp] theorem setAc_faultCode (s : State) (v : Word) : (setAc s v).faultCode = s.faultCode := rfl
@[simp] theorem setAc_faultPhase (s : State) (v : Word) : (setAc s v).faultPhase = s.faultPhase := rfl
@[simp] theorem setAc_faultPc (s : State) (v : Word) : (setAc s v).faultPc = s.faultPc := rfl
@[simp] theorem setAc_faultAddr (s : State) (v : Word) : (setAc s v).faultAddr = s.faultAddr := rfl
@[simp] theorem setAc_ir (s : State) (v : Word) : (setAc s v).ir = s.ir := rfl
@[simp] theorem setAc_pcb (s : State) (v : Word) : (setAc s v).pcb = s.pcb := rfl
@[simp] theorem setAc_fsm (s : State) (v : Word) : (setAc s v).fsm = s.fsm := rfl

/-! ### advance -/

@[simp] theorem advance_pc (s : State) : (advance s).pc = if s.pc = s.pcb then s.pcb + 1 else s.pc := rfl
@[simp] theorem advance_sp (s : State) : (advance s).sp = s.sp := rfl
@[simp] theorem advance_ac (s : State) : (advance s).ac = s.ac := rfl
@[simp] theorem advance_acv (s : State) : (advance s).acv = s.acv := rfl
@[simp] theorem advance_depth (s : State) : (advance s).depth = s.depth := rfl
@[simp] theorem advance_ended (s : State) : (advance s).ended = s.ended := rfl
@[simp] theorem advance_overlay (s : State) : (advance s).overlay = s.overlay := rfl
@[simp] theorem advance_base (s : State) : (advance s).base = s.base := rfl
@[simp] theorem advance_faulted (s : State) : (advance s).faulted = s.faulted := rfl
@[simp] theorem advance_faultCode (s : State) : (advance s).faultCode = s.faultCode := rfl
@[simp] theorem advance_faultPhase (s : State) : (advance s).faultPhase = s.faultPhase := rfl
@[simp] theorem advance_faultPc (s : State) : (advance s).faultPc = s.faultPc := rfl
@[simp] theorem advance_faultAddr (s : State) : (advance s).faultAddr = s.faultAddr := rfl
@[simp] theorem advance_ir (s : State) : (advance s).ir = s.ir := rfl
@[simp] theorem advance_pcb (s : State) : (advance s).pcb = s.pcb := rfl
@[simp] theorem advance_fsm (s : State) : (advance s).fsm = if s.ended then .halted else .ready := rfl

/-! ### enterExecute -/

@[simp] theorem enterExecute_pc (s : State) : (enterExecute s).pc = s.pc := rfl
@[simp] theorem enterExecute_sp (s : State) : (enterExecute s).sp = s.sp := rfl
@[simp] theorem enterExecute_ac (s : State) : (enterExecute s).ac = s.ac := rfl
@[simp] theorem enterExecute_acv (s : State) : (enterExecute s).acv = s.acv := rfl
@[simp] theorem enterExecute_depth (s : State) : (enterExecute s).depth = s.depth := rfl
@[simp] theorem enterExecute_ended (s : State) : (enterExecute s).ended = s.ended := rfl
@[simp] theorem enterExecute_overlay (s : State) : (enterExecute s).overlay = s.overlay := rfl
@[simp] theorem enterExecute_base (s : State) : (enterExecute s).base = s.base := rfl
@[simp] theorem enterExecute_faulted (s : State) : (enterExecute s).faulted = s.faulted := rfl
@[simp] theorem enterExecute_faultCode (s : State) : (enterExecute s).faultCode = s.faultCode := rfl
@[simp] theorem enterExecute_faultPhase (s : State) : (enterExecute s).faultPhase = s.faultPhase := rfl
@[simp] theorem enterExecute_faultPc (s : State) : (enterExecute s).faultPc = s.faultPc := rfl
@[simp] theorem enterExecute_faultAddr (s : State) : (enterExecute s).faultAddr = s.faultAddr := rfl
@[simp] theorem enterExecute_ir (s : State) : (enterExecute s).ir = s.ir := rfl
@[simp] theorem enterExecute_pcb (s : State) : (enterExecute s).pcb = s.pcb := rfl
@[simp] theorem enterExecute_fsm (s : State) : (enterExecute s).fsm = .execute := rfl

/-! ### faultEntry -/

@[simp] theorem faultEntry_pc (p : Phase) (f : Fault) (s : State) : (faultEntry p f s).pc = (Config.afterFault (volatile s) s.base).pc := rfl
@[simp] theorem faultEntry_sp (p : Phase) (f : Fault) (s : State) : (faultEntry p f s).sp = (Config.afterFault (volatile s) s.base).sp := rfl
@[simp] theorem faultEntry_ac (p : Phase) (f : Fault) (s : State) : (faultEntry p f s).ac = (Config.afterFault (volatile s) s.base).ac := rfl
@[simp] theorem faultEntry_acv (p : Phase) (f : Fault) (s : State) : (faultEntry p f s).acv = (Config.afterFault (volatile s) s.base).acv := rfl
@[simp] theorem faultEntry_depth (p : Phase) (f : Fault) (s : State) : (faultEntry p f s).depth = (Config.afterFault (volatile s) s.base).depth := rfl
@[simp] theorem faultEntry_ended (p : Phase) (f : Fault) (s : State) : (faultEntry p f s).ended = (Config.afterFault (volatile s) s.base).ended := rfl
@[simp] theorem faultEntry_overlay (p : Phase) (f : Fault) (s : State) : (faultEntry p f s).overlay = Memory.ofCells (Config.afterFault (volatile s) s.base).cells := rfl
@[simp] theorem faultEntry_base (p : Phase) (f : Fault) (s : State) : (faultEntry p f s).base = s.base := rfl
@[simp] theorem faultEntry_faulted (p : Phase) (f : Fault) (s : State) : (faultEntry p f s).faulted = true := rfl
@[simp] theorem faultEntry_faultCode (p : Phase) (f : Fault) (s : State) : (faultEntry p f s).faultCode = f.code := rfl
@[simp] theorem faultEntry_faultPhase (p : Phase) (f : Fault) (s : State) : (faultEntry p f s).faultPhase = p := rfl
@[simp] theorem faultEntry_faultPc (p : Phase) (f : Fault) (s : State) : (faultEntry p f s).faultPc = s.pcb := rfl
@[simp] theorem faultEntry_faultAddr (p : Phase) (f : Fault) (s : State) : (faultEntry p f s).faultAddr = f.addr := rfl
@[simp] theorem faultEntry_ir (p : Phase) (f : Fault) (s : State) : (faultEntry p f s).ir = (Config.afterFault (volatile s) s.base).ir := rfl
@[simp] theorem faultEntry_pcb (p : Phase) (f : Fault) (s : State) : (faultEntry p f s).pcb = (Config.afterFault (volatile s) s.base).pcb := rfl
@[simp] theorem faultEntry_fsm (p : Phase) (f : Fault) (s : State) : (faultEntry p f s).fsm = .fault := rfl

/-! ### launch -/

@[simp] theorem launch_pc (image : List Word) : (State.launch image).pc = 0 := rfl
@[simp] theorem launch_sp (image : List Word) : (State.launch image).sp = 4096 := rfl
@[simp] theorem launch_ac (image : List Word) : (State.launch image).ac = 0 := rfl
@[simp] theorem launch_acv (image : List Word) : (State.launch image).acv = false := rfl
@[simp] theorem launch_depth (image : List Word) : (State.launch image).depth = 0 := rfl
@[simp] theorem launch_ended (image : List Word) : (State.launch image).ended = false := rfl
@[simp] theorem launch_overlay (image : List Word) : (State.launch image).overlay = [] := rfl
@[simp] theorem launch_base (image : List Word) : (State.launch image).base = image := rfl
@[simp] theorem launch_faulted (image : List Word) : (State.launch image).faulted = false := rfl
@[simp] theorem launch_faultCode (image : List Word) : (State.launch image).faultCode = 0 := rfl
@[simp] theorem launch_faultPhase (image : List Word) : (State.launch image).faultPhase = .execute := rfl
@[simp] theorem launch_faultPc (image : List Word) : (State.launch image).faultPc = 0 := rfl
@[simp] theorem launch_faultAddr (image : List Word) : (State.launch image).faultAddr = 0 := rfl
@[simp] theorem launch_ir (image : List Word) : (State.launch image).ir = 0 := rfl
@[simp] theorem launch_pcb (image : List Word) : (State.launch image).pcb = 0 := rfl
@[simp] theorem launch_fsm (image : List Word) : (State.launch image).fsm = .ready := rfl

/-! ### applyReset -/

@[simp] theorem applyReset_pc (s : State) : (applyReset s).pc = 0 := rfl
@[simp] theorem applyReset_sp (s : State) : (applyReset s).sp = 4096 := rfl
@[simp] theorem applyReset_ac (s : State) : (applyReset s).ac = 0 := rfl
@[simp] theorem applyReset_acv (s : State) : (applyReset s).acv = false := rfl
@[simp] theorem applyReset_depth (s : State) : (applyReset s).depth = 0 := rfl
@[simp] theorem applyReset_ended (s : State) : (applyReset s).ended = false := rfl
@[simp] theorem applyReset_overlay (s : State) : (applyReset s).overlay = [] := rfl
@[simp] theorem applyReset_base (s : State) : (applyReset s).base = s.base := rfl
@[simp] theorem applyReset_faulted (s : State) : (applyReset s).faulted = false := rfl
@[simp] theorem applyReset_faultCode (s : State) : (applyReset s).faultCode = 0 := rfl
@[simp] theorem applyReset_faultPhase (s : State) : (applyReset s).faultPhase = .execute := rfl
@[simp] theorem applyReset_faultPc (s : State) : (applyReset s).faultPc = 0 := rfl
@[simp] theorem applyReset_faultAddr (s : State) : (applyReset s).faultAddr = 0 := rfl
@[simp] theorem applyReset_ir (s : State) : (applyReset s).ir = 0 := rfl
@[simp] theorem applyReset_pcb (s : State) : (applyReset s).pcb = 0 := rfl
@[simp] theorem applyReset_fsm (s : State) : (applyReset s).fsm = .ready := rfl

end Sys2Proof.Machine
end

