-- ==== Sys2Proof/Laws/Ops.lean ====
section
/-! SUPPORT. What each shared operation can do, said once: callers cite these lemmas and do not unfold the operation. -/

namespace Sys2Proof.Machine

/-! ### Raising -/

@[simp] theorem ok_bind {α β : Type} (a : α) (f : α → Except Fault β) : (Except.ok a >>= f) = f a := rfl

@[simp] theorem error_bind {α β : Type} (e : Fault) (f : α → Except Fault β) : (Except.error e >>= f) = .error e := rfl

@[simp] theorem pure_eq_ok {α : Type} (a : α) : (pure a : Except Fault α) = .ok a := rfl

/-- A sequence completes exactly when its first part does and the rest does. -/
theorem bind_eq_ok {α β : Type} {x : Except Fault α} {f : α → Except Fault β} {b : β} :
    (x >>= f) = .ok b ↔ ∃ a, x = .ok a ∧ f a = .ok b := by
  cases x <;> simp

/-- A sequence raises what its first part raises, or what the rest raises. -/
theorem bind_eq_error {α β : Type} {x : Except Fault α} {f : α → Except Fault β} {e : Fault} :
    (x >>= f) = .error e ↔ x = .error e ∨ ∃ a, x = .ok a ∧ f a = .error e := by
  cases x <;> simp

/-! ### Memory -/

theorem memRead_outside (s : State) {a : Nat} (h : 4096 ≤ a) : memRead s a = .error (.addressOutOfBounds a) := by
  simp [memRead, h]

/-- Inside memory every read answers a value. -/
theorem memRead_inside (s : State) {a : Nat} (h : a < 4096) : ∃ v, memRead s a = .ok v := by
  unfold memRead
  rw [if_neg (by simp; omega)]
  split <;> exact ⟨_, rfl⟩

theorem memRead_ok_lt {s : State} {a : Nat} {v : Word} (h : memRead s a = .ok v) : a < 4096 := by
  by_contra hge
  rw [memRead_outside s (by omega)] at h
  cases h

/-- A read raises only AddressOutOfBounds, with its address. -/
theorem memRead_error {s : State} {a : Nat} {f : Fault} (h : memRead s a = .error f) :
    4096 ≤ a ∧ f = .addressOutOfBounds a := by
  rcases Nat.lt_or_ge a 4096 with lt | ge
  · obtain ⟨v, hv⟩ := memRead_inside s lt
    rw [hv] at h
    cases h
  · rw [memRead_outside s ge] at h
    cases h
    exact ⟨ge, rfl⟩

/-- A read sees only the overlay and the base. -/
theorem memRead_congr {s t : State} (ho : t.overlay = s.overlay) (hb : t.base = s.base) (a : Nat) :
    memRead t a = memRead s a := by
  simp [memRead, baseWord, ho, hb]

theorem memWrite_outside (s : State) {a : Nat} (v : Nat) (h : 4096 ≤ a) :
    memWrite s a v = .error (.addressOutOfBounds a) := by
  simp [memWrite, h]

theorem memWrite_overflow (s : State) {a v : Nat} (h : a < 4096) (hv : 65535 < v) :
    memWrite s a v = .error (.numberOverflow v) := by
  simp [memWrite, hv]; omega

/-- A write inside memory of a 16-bit value records it and changes nothing else. -/
theorem memWrite_inside (s : State) {a v : Nat} (h : a < 4096) (hv : v ≤ 65535) :
    memWrite s a v = .ok { s with overlay := s.overlay.write a (BitVec.ofNat 16 v) } := by
  unfold memWrite
  rw [if_neg (by simp; omega), if_neg (by simp; omega)]

theorem memWrite_word (s : State) {a : Nat} (v : Word) (h : a < 4096) :
    memWrite s a v.toNat = .ok { s with overlay := s.overlay.write a v } := by
  rw [memWrite_inside s h (by omega), BitVec.ofNat_toNat]
  simp

/-- Everything a write that completes can have done. -/
theorem memWrite_ok {s t : State} {a v : Nat} (h : memWrite s a v = .ok t) :
    a < 4096 ∧ v ≤ 65535 ∧ t = { s with overlay := s.overlay.write a (BitVec.ofNat 16 v) } := by
  unfold memWrite at h
  split at h
  · cases h
  · split at h
    · cases h
    · cases h
      simp at *
      omega

theorem memWrite_error {s : State} {a v : Nat} {f : Fault} (h : memWrite s a v = .error f) :
    (4096 ≤ a ∧ f = .addressOutOfBounds a) ∨ (a < 4096 ∧ 65535 < v ∧ f = .numberOverflow v) := by
  unfold memWrite at h
  split at h
  · cases h
    simp at *
    omega
  · split at h
    · cases h
      simp at *
      omega
    · cases h

/-- The written cell reads the written value. -/
theorem memRead_written {s t : State} {a : Nat} {v : Word} (ha : a < 4096)
    (ho : t.overlay = s.overlay.write a v) : memRead t a = .ok v := by
  unfold memRead
  rw [if_neg (by simp; omega), ho, Memory.lookup_write_same]

/-- Every other cell reads as before. -/
theorem memRead_other {s t : State} {a b : Nat} {v : Word} (hb : t.base = s.base)
    (ho : t.overlay = s.overlay.write a v) (h : b ≠ a) : memRead t b = memRead s b := by
  unfold memRead baseWord
  rw [hb, ho, Memory.lookup_write_other _ _ h]

theorem checkAddr_inside {a : Nat} (h : a < 4096) : checkAddr a = .ok () := by
  simp [checkAddr]; omega

theorem checkAddr_outside {a : Nat} (h : 4096 ≤ a) : checkAddr a = .error (.addressOutOfBounds a) := by
  simp [checkAddr, h]

/-! ### The accumulator and the stack pointer -/

theorem requireAc_valid {s : State} (h : s.acv = true) : requireAc s = .ok s.ac := by simp [requireAc, h]

theorem requireAc_unset {s : State} (h : s.acv = false) :
    requireAc s = .error (.uninitializedAccumulator s.pcb) := by simp [requireAc, h]

theorem spDec_low {s : State} {k : Nat} (h : s.sp.toNat < 2048 + k) : spDec s k = .error (.stackOverflow s.pcb) := by
  unfold spDec
  rw [if_pos (by simp; omega)]

theorem spDec_ok {s : State} {k : Nat} (h : 2048 + k ≤ s.sp.toNat) :
    spDec s k = .ok { s with sp := BitVec.ofNat 16 (s.sp.toNat - k) } := by
  unfold spDec
  rw [if_neg (by simp; omega)]

theorem spInc_high {s : State} {k : Nat} (h : 4096 < s.sp.toNat + k) : spInc s k = .error (.stackUnderflow s.pcb) := by
  unfold spInc
  rw [if_pos (by simp; omega)]

theorem spInc_ok {s : State} {k : Nat} (h : s.sp.toNat + k ≤ 4096) :
    spInc s k = .ok { s with sp := BitVec.ofNat 16 (s.sp.toNat + k) } := by
  unfold spInc
  rw [if_neg (by simp; omega)]

/-! ### The end of a body, fetch and fault entry -/

@[simp] theorem finish_ok (s t : State) : finish s (.ok t) = .next (advance t) := rfl

@[simp] theorem finish_error (s : State) (f : Fault) : finish s (.error f) = .next (faultEntry .execute f s) := rfl

/-- Everything the end of a body can do. -/
theorem finish_next {s t : State} {body : Except Fault State} (h : finish s body = .next t) :
    (∃ u, body = .ok u ∧ t = advance u) ∨ (∃ f, body = .error f ∧ t = faultEntry .execute f s) := by
  cases body with
  | ok u => exact .inl ⟨u, rfl, by simpa using h.symm⟩
  | error f => exact .inr ⟨f, rfl, by simpa using h.symm⟩

/-- An answer without a fault comes from a body that raised nothing. -/
theorem finish_completes {s t : State} {body : Except Fault State} (h : finish s body = .next t)
    (hf : t.faulted = false) : ∃ u, body = .ok u ∧ t = advance u := by
  rcases finish_next h with hok | ⟨f, -, rfl⟩
  · exact hok
  · simp at hf

/-- A fault entry with code 1 to 7 leaves a latched record, when its address is one a fault of its kind carries. -/
theorem faultEntry_overlay_wf (p : Phase) (f : Fault) (s : State) : (faultEntry p f s).overlay.wf :=
  Memory.wf_ofCells _

theorem fetch_ok {s : State} {w : Word} (h : memRead s s.pc.toNat = .ok w) :
    fetch s = .ok { s with pcb := s.pc, ir := w, fsm := .decode } := by simp [fetch, h]

theorem fetch_outside {s : State} (h : 4096 ≤ s.pc.toNat) :
    fetch s = .error (.addressOutOfBounds s.pc.toNat) := by simp [fetch, memRead_outside s h]

/-- Every instruction is the end of some body started in the state given. -/
theorem exec_eq_finish (i : Instr) (s : State) : ∃ body, exec i s = finish s body := by
  cases i <;> first | exact ⟨_, rfl⟩ | exact ⟨.ok _, rfl⟩

/-- `exec` always answers a next state. -/
theorem exec_next (i : Instr) (s : State) : ∃ t, exec i s = .next t := by
  obtain ⟨body, h⟩ := exec_eq_finish i s
  rw [h]
  cases body <;> exact ⟨_, rfl⟩

theorem step_faulted {s : State} (h : s.faulted = true) : step s = .next s := by simp [step, h]

theorem step_ended {s : State} (h : s.ended = true) : step s = .next s := by
  simp [step, h]

/-- Everything a step of a running machine can do. -/
theorem step_running {s : State} (h : s.Running) :
    (4096 ≤ s.pc.toNat ∧ step s = .next (fetchFault (.addressOutOfBounds s.pc.toNat) s)) ∨
    ∃ w, memRead s s.pc.toNat = .ok w ∧
      ((∃ e, decode w = .error e ∧ step s = .next (decodeFault e { s with pcb := s.pc, ir := w, fsm := .decode })) ∨
       ∃ i, decode w = .ok i ∧ step s = exec i { s with pcb := s.pc, ir := w, fsm := .execute }) := by
  rcases Nat.lt_or_ge s.pc.toNat 4096 with lt | ge
  · obtain ⟨w, hw⟩ := memRead_inside s lt
    refine .inr ⟨w, hw, ?_⟩
    cases hd : decode w with
    | error e => exact .inl ⟨e, rfl, by simp [step, h.1, h.2, fetch_ok hw, hd]⟩
    | ok i => exact .inr ⟨i, rfl, by simp [step, h.1, h.2, fetch_ok hw, hd, enterExecute]⟩
  · exact .inl ⟨ge, by simp [step, h.1, h.2, fetch_outside ge]⟩

end Sys2Proof.Machine
end

