-- ==== Sys2Proof/Laws/Exec.lean ====
section
/-! SUPPORT. Everything `exec` can do, said once: it takes a fault by fault entry, or it completes and then keeps the
base, the fault record, `ir` and `pcb` (10_state.md R21, 20_memory.md R53). -/

namespace Sys2Proof.Machine

/-- `t` has the base, the fault record, `ir` and `pcb` of `s`. -/
structure SameRecord (s t : State) : Prop where
  base : t.base = s.base
  faulted : t.faulted = s.faulted
  faultCode : t.faultCode = s.faultCode
  faultPhase : t.faultPhase = s.faultPhase
  faultPc : t.faultPc = s.faultPc
  faultAddr : t.faultAddr = s.faultAddr
  ir : t.ir = s.ir
  pcb : t.pcb = s.pcb

theorem SameRecord.refl (s : State) : SameRecord s s := ⟨rfl, rfl, rfl, rfl, rfl, rfl, rfl, rfl⟩

theorem SameRecord.trans {s t u : State} (h : SameRecord s t) (k : SameRecord t u) : SameRecord s u :=
  ⟨k.1.trans h.1, k.2.trans h.2, k.3.trans h.3, k.4.trans h.4, k.5.trans h.5, k.6.trans h.6, k.7.trans h.7,
    k.8.trans h.8⟩

theorem sameRecord_setAc (s : State) (v : Word) : SameRecord s (setAc s v) := ⟨rfl, rfl, rfl, rfl, rfl, rfl, rfl, rfl⟩

theorem sameRecord_advance (s : State) : SameRecord s (advance s) := ⟨rfl, rfl, rfl, rfl, rfl, rfl, rfl, rfl⟩

theorem sameRecord_memWrite {s t : State} {a v : Nat} (h : memWrite s a v = .ok t) : SameRecord s t := by
  obtain ⟨-, -, rfl⟩ := memWrite_ok h
  exact ⟨rfl, rfl, rfl, rfl, rfl, rfl, rfl, rfl⟩

theorem sameRecord_spDec {s t : State} {k : Nat} (h : spDec s k = .ok t) : SameRecord s t := by
  unfold spDec at h
  split at h <;> cases h
  exact ⟨rfl, rfl, rfl, rfl, rfl, rfl, rfl, rfl⟩

theorem sameRecord_spInc {s t : State} {k : Nat} (h : spInc s k = .ok t) : SameRecord s t := by
  unfold spInc at h
  split at h <;> cases h
  exact ⟨rfl, rfl, rfl, rfl, rfl, rfl, rfl, rfl⟩

theorem sameRecord_depthInc {s t : State} (h : depthInc s = .ok t) : SameRecord s t := by
  unfold depthInc at h
  split at h <;> cases h
  exact ⟨rfl, rfl, rfl, rfl, rfl, rfl, rfl, rfl⟩

theorem sameRecord_depthDec {s t : State} (h : depthDec s = .ok t) : SameRecord s t := by
  unfold depthDec at h
  split at h <;> cases h
  exact ⟨rfl, rfl, rfl, rfl, rfl, rfl, rfl, rfl⟩

theorem sameRecord_jumpIf {test : Word → Bool} {arg : Operand12} {s t : State} (h : jumpIf test arg s = .ok t) :
    SameRecord s t := by
  simp only [jumpIf, bind_eq_ok, pure_eq_ok, Except.ok.injEq] at h
  obtain ⟨a, -, rfl⟩ := h
  split <;> exact ⟨rfl, rfl, rfl, rfl, rfl, rfl, rfl, rfl⟩

/-- What an answer that comes from a body can be, when a body that completes keeps the record. -/
theorem finish_cases {s t : State} {body : Except Fault State} (hb : ∀ u, body = .ok u → SameRecord s u)
    (h : finish s body = .next t) : (∃ f, t = faultEntry .execute f s) ∨ SameRecord s t := by
  rcases finish_next h with ⟨u, hu, rfl⟩ | ⟨f, -, rfl⟩
  · exact .inr ((hb u hu).trans (sameRecord_advance u))
  · exact .inl ⟨f, rfl⟩

/-- Everything `exec` can do: fault entry, or a completion that keeps the base, the fault record, `ir` and `pcb`. -/
theorem exec_cases (i : Instr) {s t : State} (h : exec i s = .next t) :
    (∃ f, t = faultEntry .execute f s) ∨ SameRecord s t := by
  cases i with
  | lodd | addd | subd | lodl | addl | subl =>
    refine finish_cases (fun u hu => ?_) h
    simp only [bind_eq_ok, pure_eq_ok, Except.ok.injEq] at hu
    grind [sameRecord_setAc]
  | stod =>
    refine finish_cases (fun u hu => ?_) h
    simp only [bind_eq_ok] at hu
    obtain ⟨a, -, hw⟩ := hu
    exact sameRecord_memWrite hw
  | stol =>
    refine finish_cases (fun u hu => ?_) h
    simp only [bind_eq_ok] at hu
    obtain ⟨-, -, a, -, hw⟩ := hu
    exact sameRecord_memWrite hw
  | jpos | jzer | jneg | jnze => exact finish_cases (fun u hu => sameRecord_jumpIf hu) h
  | jump arg =>
    refine finish_cases (body := .ok _) (fun u hu => ?_) h
    cases hu
    split <;> exact ⟨rfl, rfl, rfl, rfl, rfl, rfl, rfl, rfl⟩
  | loco arg =>
    refine finish_cases (body := .ok _) (fun u hu => ?_) h
    cases hu
    exact sameRecord_setAc _ _
  | call =>
    refine finish_cases (fun u hu => ?_) h
    simp only [bind_eq_ok, pure_eq_ok, Except.ok.injEq] at hu
    obtain ⟨s1, h1, s2, h2, s3, h3, rfl⟩ := hu
    exact ((sameRecord_depthInc h1).trans (sameRecord_spDec h2)).trans
      ((sameRecord_memWrite h3).trans ⟨rfl, rfl, rfl, rfl, rfl, rfl, rfl, rfl⟩)
  | pshi =>
    refine finish_cases (fun u hu => ?_) h
    simp only [bind_eq_ok] at hu
    obtain ⟨s1, h1, v, -, h2⟩ := hu
    exact (sameRecord_spDec h1).trans (sameRecord_memWrite h2)
  | popi =>
    refine finish_cases (fun u hu => ?_) h
    simp only [bind_eq_ok] at hu
    obtain ⟨v, -, s1, h1, h2⟩ := hu
    exact (sameRecord_memWrite h1).trans (sameRecord_spInc h2)
  | push =>
    refine finish_cases (fun u hu => ?_) h
    simp only [bind_eq_ok] at hu
    obtain ⟨s1, h1, -, -, v, -, h2⟩ := hu
    exact (sameRecord_spDec h1).trans (sameRecord_memWrite h2)
  | pop =>
    refine finish_cases (fun u hu => ?_) h
    simp only [bind_eq_ok] at hu
    obtain ⟨v, -, h1⟩ := hu
    exact (sameRecord_setAc _ _).trans (sameRecord_spInc h1)
  | retn =>
    refine finish_cases (fun u hu => ?_) h
    simp only [bind_eq_ok] at hu
    obtain ⟨s1, h1, v, -, h2⟩ := hu
    have hpc : SameRecord s1 { s1 with pc := v } := ⟨rfl, rfl, rfl, rfl, rfl, rfl, rfl, rfl⟩
    exact (sameRecord_depthDec h1).trans (hpc.trans (sameRecord_spInc h2))
  | swap =>
    refine finish_cases (fun u hu => ?_) h
    simp only [bind_eq_ok, pure_eq_ok, Except.ok.injEq] at hu
    obtain ⟨a, -, rfl⟩ := hu
    exact ⟨rfl, rfl, rfl, rfl, rfl, rfl, rfl, rfl⟩
  | insp => exact finish_cases (fun u hu => sameRecord_spInc hu) h
  | desp => exact finish_cases (fun u hu => sameRecord_spDec hu) h

/-- A fault taken while the machine was not faulted came through fault entry. -/
theorem exec_faulted {i : Instr} {s t : State} (hs : s.faulted = false) (h : exec i s = .next t)
    (ht : t.faulted = true) : ∃ f, t = faultEntry .execute f s := by
  rcases exec_cases i h with hf | hr
  · exact hf
  · rw [hr.faulted, hs] at ht
    cases ht

end Sys2Proof.Machine
end

