-- ==== Sys2Proof/Laws/PerInstr.lean ====
section
/-! SUPPORT. Facts about every instruction as syntax, one lemma per constructor. -/

namespace Sys2Proof.Laws

/-- The operand of a standard-form instruction makes a valid pair with every standard-form byte whose low nibble is 0. -/
theorem validPair_standard {op : Byte} (a : Operand12) (h1 : op.toNat / 16 ≠ 15) (h2 : op.toNat % 16 = 0) :
    validPair op (a.setWidth 16) = true := by
  simp [validPair, h1, h2]
  omega

/-- The operand of a stack-form instruction makes a valid pair with every stack-form byte. -/
theorem validPair_stack {op : Byte} (b : Byte) (h : op.toNat / 16 = 15) : validPair op (b.setWidth 16) = true := by
  simp [validPair, h]
  omega

theorem wf_standard (a : Operand12) : decide (a.toNat < 4096) = true := by
  simp
  omega

theorem wf_stack (b : Byte) : decide (b.toNat < 256) = true := by
  simp
  omega

/-- Every instruction is well formed, and the pair it presents to the encoder is valid (30_encoding.md R91). -/
def WellFormed.Statement (i : Instr) : Prop := i.wf = true ∧ validPair i.opcodeByte i.operand = true

theorem WellFormed.lodd (a : Operand12) : WellFormed.Statement (.lodd a) :=
  ⟨wf_standard a, validPair_standard (op := 0x00#8) a (by decide) (by decide)⟩

theorem WellFormed.stod (a : Operand12) : WellFormed.Statement (.stod a) :=
  ⟨wf_standard a, validPair_standard (op := 0x10#8) a (by decide) (by decide)⟩

theorem WellFormed.addd (a : Operand12) : WellFormed.Statement (.addd a) :=
  ⟨wf_standard a, validPair_standard (op := 0x20#8) a (by decide) (by decide)⟩

theorem WellFormed.subd (a : Operand12) : WellFormed.Statement (.subd a) :=
  ⟨wf_standard a, validPair_standard (op := 0x30#8) a (by decide) (by decide)⟩

theorem WellFormed.jpos (a : Operand12) : WellFormed.Statement (.jpos a) :=
  ⟨wf_standard a, validPair_standard (op := 0x40#8) a (by decide) (by decide)⟩

theorem WellFormed.jzer (a : Operand12) : WellFormed.Statement (.jzer a) :=
  ⟨wf_standard a, validPair_standard (op := 0x50#8) a (by decide) (by decide)⟩

theorem WellFormed.jump (a : Operand12) : WellFormed.Statement (.jump a) :=
  ⟨wf_standard a, validPair_standard (op := 0x60#8) a (by decide) (by decide)⟩

theorem WellFormed.loco (a : Operand12) : WellFormed.Statement (.loco a) :=
  ⟨wf_standard a, validPair_standard (op := 0x70#8) a (by decide) (by decide)⟩

theorem WellFormed.lodl (a : Operand12) : WellFormed.Statement (.lodl a) :=
  ⟨wf_standard a, validPair_standard (op := 0x80#8) a (by decide) (by decide)⟩

theorem WellFormed.stol (a : Operand12) : WellFormed.Statement (.stol a) :=
  ⟨wf_standard a, validPair_standard (op := 0x90#8) a (by decide) (by decide)⟩

theorem WellFormed.addl (a : Operand12) : WellFormed.Statement (.addl a) :=
  ⟨wf_standard a, validPair_standard (op := 0xA0#8) a (by decide) (by decide)⟩

theorem WellFormed.subl (a : Operand12) : WellFormed.Statement (.subl a) :=
  ⟨wf_standard a, validPair_standard (op := 0xB0#8) a (by decide) (by decide)⟩

theorem WellFormed.jneg (a : Operand12) : WellFormed.Statement (.jneg a) :=
  ⟨wf_standard a, validPair_standard (op := 0xC0#8) a (by decide) (by decide)⟩

theorem WellFormed.jnze (a : Operand12) : WellFormed.Statement (.jnze a) :=
  ⟨wf_standard a, validPair_standard (op := 0xD0#8) a (by decide) (by decide)⟩

theorem WellFormed.call (a : Operand12) : WellFormed.Statement (.call a) :=
  ⟨wf_standard a, validPair_standard (op := 0xE0#8) a (by decide) (by decide)⟩

theorem WellFormed.pshi (b : Byte) : WellFormed.Statement (.pshi b) :=
  ⟨wf_stack b, validPair_stack (op := 0xF0#8) b (by decide)⟩

theorem WellFormed.popi (b : Byte) : WellFormed.Statement (.popi b) :=
  ⟨wf_stack b, validPair_stack (op := 0xF2#8) b (by decide)⟩

theorem WellFormed.push (b : Byte) : WellFormed.Statement (.push b) :=
  ⟨wf_stack b, validPair_stack (op := 0xF4#8) b (by decide)⟩

theorem WellFormed.pop (b : Byte) : WellFormed.Statement (.pop b) :=
  ⟨wf_stack b, validPair_stack (op := 0xF6#8) b (by decide)⟩

theorem WellFormed.retn (b : Byte) : WellFormed.Statement (.retn b) :=
  ⟨wf_stack b, validPair_stack (op := 0xF8#8) b (by decide)⟩

theorem WellFormed.swap (b : Byte) : WellFormed.Statement (.swap b) :=
  ⟨wf_stack b, validPair_stack (op := 0xFA#8) b (by decide)⟩

theorem WellFormed.insp (b : Byte) : WellFormed.Statement (.insp b) :=
  ⟨wf_stack b, validPair_stack (op := 0xFC#8) b (by decide)⟩

theorem WellFormed.desp (b : Byte) : WellFormed.Statement (.desp b) :=
  ⟨wf_stack b, validPair_stack (op := 0xFE#8) b (by decide)⟩

end Sys2Proof.Laws
end

