-- ==== Sys2Proof/Tests/Slice0.lean ====
section
/-! SUPPORT. The author's tests. Expected results are the vectors of 95_test_vectors.md, the worked examples and corner
cases of the instruction rules, and words written out from the patterns of 30_encoding.md R85. `witness_<Name>` shows
data that meet the hypotheses of the obligation `<Name>`, one example for each of its clauses. -/

namespace Sys2Proof.Tests

open Sys2Proof Sys2Proof.Machine

/-! ### Helpers -/

/-- A machine at a step boundary: a word at `pc`, other cells, and an accumulator that is unset or holds a value. -/
def machine (pc sp : Nat) (ac : Option Word) (depth : Nat) (word : Word) (cells : List (Nat × Word)) : State :=
  { State.reset with
    pc := BitVec.ofNat 16 pc, sp := BitVec.ofNat 16 sp, ac := ac.getD 0, acv := ac.isSome,
    depth := BitVec.ofNat 7 depth, overlay := (Memory.ofCells cells).write pc word }

/-- The state after one step of such a machine. -/
def ran (pc sp : Nat) (ac : Option Word) (depth : Nat) (word : Word) (cells : List (Nat × Word)) : State :=
  stepState (machine pc sp ac depth word cells)

/-- A machine in which an instruction's body starts. -/
def body (pc sp : Nat) (ac : Option Word) (depth : Nat) (cells : List (Nat × Word)) : State :=
  { State.reset with
    pc := BitVec.ofNat 16 pc, pcb := BitVec.ofNat 16 pc, sp := BitVec.ofNat 16 sp, ac := ac.getD 0,
    acv := ac.isSome, depth := BitVec.ofNat 7 depth, overlay := Memory.ofCells cells, fsm := .execute }

/-- The machine is in FAULT with this record. -/
def faultedWith (t : State) (code : BitVec 4) (phase : Phase) (pc : Word) (addr : BitVec 17) : Bool :=
  t.faulted && t.faultCode == code && decide (t.faultPhase = phase) && t.faultPc == pc && t.faultAddr == addr &&
    decide (t.fsm = .fault)

/-! ### Well-formedness: ill-formed data are refused -/

theorem test_wf_wide_standard_operand : validPair 0x20 4101 = false := by decide
theorem test_wf_wide_stack_operand : validPair 0xF4 511 = false := by decide
theorem test_wf_low_nibble : validPair 0x15 7 = false := by decide
theorem test_wf_limits : validPair 0xE0 4095 = true ∧ validPair 0xF0 255 = true := by decide
theorem test_wf_image_too_long : imageFits (List.replicate 4097 0) = false := by
  rw [imageFits, List.length_replicate]; decide
theorem test_wf_overlay_order : ¬ Memory.wf [(5, 1), (4, 1)] := by decide
theorem test_wf_overlay_repeat : ¬ Memory.wf [(5, 1), (5, 2)] := by decide
theorem test_wf_overlay_outside : ¬ Memory.wf [(4096, 1)] := by decide

/-! ### Decoding: every constructor's word, written out from the patterns of R85 -/

theorem test_decode_lodd : decode 0b0000000001100100#16 = .ok (.lodd 100) := by decide
theorem test_decode_stod : decode 0b0001100000000001#16 = .ok (.stod 0x801) := by decide
theorem test_decode_addd : decode 0b0010000001100100#16 = .ok (.addd 100) := by decide
theorem test_decode_subd : decode 0b0011000000001100#16 = .ok (.subd 12) := by decide
theorem test_decode_jpos : decode 0b0100000000010100#16 = .ok (.jpos 20) := by decide
theorem test_decode_jzer : decode 0b0101000000001001#16 = .ok (.jzer 9) := by decide
theorem test_decode_jump : decode 0b0110111111111111#16 = .ok (.jump 4095) := by decide
theorem test_decode_loco : decode 0b0111101110111000#16 = .ok (.loco 3000) := by decide
theorem test_decode_lodl : decode 0b1000000001011111#16 = .ok (.lodl 95) := by decide
theorem test_decode_stol : decode 0b1001000000000011#16 = .ok (.stol 3) := by decide
theorem test_decode_addl : decode 0b1010000000000001#16 = .ok (.addl 1) := by decide
theorem test_decode_subl : decode 0b1011010000000010#16 = .ok (.subl 0x402) := by decide
theorem test_decode_jneg : decode 0b1100000000010100#16 = .ok (.jneg 20) := by decide
theorem test_decode_jnze : decode 0b1101000000000100#16 = .ok (.jnze 4) := by decide
theorem test_decode_call : decode 0b1110000000000110#16 = .ok (.call 6) := by decide
theorem test_decode_pshi : decode 0b1111000000000110#16 = .ok (.pshi 6) := by decide
theorem test_decode_popi : decode 0b1111001010000111#16 = .ok (.popi 0x87) := by decide
theorem test_decode_push : decode 0b1111010011111111#16 = .ok (.push 255) := by decide
theorem test_decode_pop : decode 0b1111011000000000#16 = .ok (.pop 0) := by decide
theorem test_decode_retn : decode 0b1111100010101011#16 = .ok (.retn 171) := by decide
theorem test_decode_swap : decode 0b1111101000000000#16 = .ok (.swap 0) := by decide
theorem test_decode_insp : decode 0b1111110000101100#16 = .ok (.insp 44) := by decide
theorem test_decode_desp : decode 0b1111111011111111#16 = .ok (.desp 255) := by decide
theorem test_decode_odd_byte : decode 0b1111001100000001#16 = .error (.undefinedOperation 0xF3) := by decide

/-- The encoder's vectors of 95_test_vectors.md. -/
theorem test_encode : encodePair 0xF4 511 = 0xF4FF ∧ encodePair 0xFC 300 = 0xFC2C ∧ encodePair 0xF1 52 = 0xF134 ∧
    encodePair 0x15 7 = 0x1007 ∧ encodePair 0x00 65535 = 0xFFFF ∧ encodePair 0x70 4095 = 0x7FFF := by decide

/-- The decoder's port vectors of 95_test_vectors.md. -/
theorem test_decoder_ports : decIndex 0x7005 = 7 ∧ decIndex 0xF400 = 17 ∧ decIndex 0xFEFF = 22 ∧
    decIndex 0xF100 = 0 ∧ decKnown 0xF100 = false ∧ decStack 0x7005 = false := by decide

/-- `decodeTableWord` on a table row's word, and its refusal of an odd stack-form byte. -/
theorem test_decode_table_word : decodeTableWord 16 0x7005 = some (.loco 5) ∧ decodeTableWord 16 0xF500 = none := by
  decide

/-! ### One step of every instruction (95_test_vectors.md, part L2) -/

theorem test_lodd_unset : (ran 0 4096 none 0 0x0064 [(100, 0x1234)]).ac = 0x1234 ∧
    (ran 0 4096 none 0 0x0064 [(100, 0x1234)]).acv = true := by decide
theorem test_lodd_itself : (ran 0 4096 (some 9) 0 0x0000 []).ac = 0 ∧ (ran 0 4096 (some 9) 0 0x0000 []).pc = 1 := by
  decide
theorem test_stod_over_itself : memRead (ran 3 4096 (some 0x6003) 0 0x1003 []) 3 = .ok 0x6003 ∧
    (ran 3 4096 (some 0x6003) 0 0x1003 []).pc = 4 := by decide
theorem test_stod_unset : faultedWith (ran 0 4096 none 0 0x1064 []) 7 .execute 0 0 = true := by decide
theorem test_loco_largest : (ran 0 4096 none 0 0x7FFF []).ac = 4095 ∧ (ran 0 4096 none 0 0x7FFF []).acv = true := by
  decide
theorem test_loco_zero : (ran 0 4096 (some 9) 0 0x7000 []).ac = 0 := by decide
theorem test_addd_wraps : (ran 0 4096 (some 0xFFFF) 0 0x2064 [(100, 1)]).ac = 0 := by decide
theorem test_addd_sign : (ran 0 4096 (some 0x7FFF) 0 0x2064 [(100, 1)]).ac = 0x8000 := by decide
theorem test_subd_borrow : (ran 0 4096 (some 0) 0 0x3064 [(100, 1)]).ac = 0xFFFF := by decide
theorem test_subd_order : (ran 0 4096 (some 3) 0 0x300C [(12, 1)]).ac = 2 := by decide
theorem test_jump_self : (ran 4095 4096 none 0 0x6FFF []).ended = true ∧ (ran 4095 4096 none 0 0x6FFF []).pc = 4096 ∧
    (ran 4095 4096 none 0 0x6FFF []).fsm = .halted ∧ stepStatus (ran 4095 4096 none 0 0x6FFF []) = 8 := by decide
theorem test_jump_other : (ran 2 4096 none 0 0x6007 []).pc = 7 ∧ (ran 2 4096 none 0 0x6007 []).ended = false := by
  decide
theorem test_jzer : (ran 4 4096 (some 0) 0 0x5009 []).pc = 9 ∧ (ran 4 4096 (some 1) 0 0x5009 []).pc = 5 := by decide
theorem test_jzer_self : (ran 4 4096 (some 0) 0 0x5004 []).pc = 5 ∧
    (ran 4 4096 (some 0) 0 0x5004 []).ended = false := by decide
theorem test_jnze : (ran 10 4096 (some 0x8000) 0 0xD004 []).pc = 4 ∧ (ran 10 4096 (some 0) 0 0xD004 []).pc = 11 := by
  decide
theorem test_jneg : (ran 0 4096 (some 0x8000) 0 0xC014 []).pc = 20 ∧ (ran 0 4096 (some 0x7FFF) 0 0xC014 []).pc = 1 := by
  decide
theorem test_jpos : (ran 0 4096 (some 0) 0 0x4014 []).pc = 20 ∧ (ran 0 4096 (some 0xFFFF) 0 0x4014 []).pc = 1 := by
  decide
theorem test_jpos_unset : faultedWith (ran 4 4096 none 0 0x4014 []) 7 .execute 4 0 = true := by decide
theorem test_lodl_last_cell : (ran 0 4000 none 0 0x805F [(4095, 3)]).ac = 3 := by decide
theorem test_lodl_no_wrap : faultedWith (ran 0 2048 none 0 0x8FFF []) 1 .execute 0 6143 = true := by decide
theorem test_stol : memRead (ran 0 4094 (some 8) 0 0x9001 []) 4095 = .ok 8 := by decide
theorem test_stol_order : faultedWith (ran 0 4094 none 0 0x9002 []) 1 .execute 0 4096 = true := by decide
theorem test_addl : (ran 0 4094 (some 7) 0 0xA001 [(4095, 7)]).ac = 14 := by decide
theorem test_subl : (ran 0 4094 (some 7) 0 0xB001 [(4095, 8)]).ac = 0xFFFF := by decide
theorem test_call_top : (ran 4095 4096 none 0 0xE000 []).pc = 0 ∧ (ran 4095 4096 none 0 0xE000 []).sp = 4095 ∧
    (ran 4095 4096 none 0 0xE000 []).depth = 1 ∧ memRead (ran 4095 4096 none 0 0xE000 []) 4095 = .ok 4096 := by decide
theorem test_call_ceiling : (ran 0 4096 none 98 0xE010 []).depth = 99 ∧
    faultedWith (ran 0 4096 none 99 0xE010 []) 5 .execute 0 0 = true := by decide
theorem test_retn : (ran 8 4094 none 1 0xF800 [(4094, 3)]).pc = 3 ∧ (ran 8 4094 none 1 0xF800 [(4094, 3)]).sp = 4095 ∧
    (ran 8 4094 none 1 0xF800 [(4094, 3)]).depth = 0 := by decide
theorem test_retn_own_address : (ran 8 4095 none 1 0xF800 [(4095, 8)]).pc = 9 ∧
    faultedWith (ran 8 4095 none 0 0xF800 [(4095, 8)]) 4 .execute 8 0 = true := by decide
theorem test_push_floor : memRead (ran 0 2049 (some 1) 0 0xF400 []) 2048 = .ok 1 ∧
    (ran 0 2049 (some 1) 0 0xF400 []).sp = 2048 := by decide
theorem test_push_order : faultedWith (ran 0 2048 none 0 0xF400 []) 3 .execute 0 0 = true ∧
    faultedWith (ran 0 4098 (some 1) 0 0xF400 []) 1 .execute 0 4097 = true := by decide
theorem test_pop_low : (ran 0 100 (some 1) 0 0xF600 [(100, 9)]).ac = 9 ∧
    (ran 0 100 (some 1) 0 0xF600 [(100, 9)]).sp = 101 := by decide
theorem test_pop_empty : faultedWith (ran 0 4096 none 0 0xF600 []) 1 .execute 0 4096 = true := by decide
theorem test_pshi : memRead (ran 0 4096 none 0 0xF006 [(6, 1234)]) 4095 = .ok 1234 ∧
    (ran 0 4096 none 0 0xF006 [(6, 1234)]).sp = 4095 := by decide
theorem test_pshi_high : faultedWith (ran 0 4097 none 0 0xF0FF []) 1 .execute 0 4096 = true := by decide
theorem test_popi : memRead (ran 0 4095 none 0 0xF207 [(4095, 1234)]) 7 = .ok 1234 ∧
    (ran 0 4095 none 0 0xF207 [(4095, 1234)]).sp = 4096 := by decide
theorem test_popi_same_cell : memRead (ran 0 5 none 0 0xF205 [(5, 77)]) 5 = .ok 77 ∧
    (ran 0 5 none 0 0xF205 [(5, 77)]).sp = 6 := by decide
theorem test_swap_unchecked : (ran 0 2048 (some 0) 0 0xFA00 []).sp = 0 ∧
    (ran 0 2048 (some 0) 0 0xFA00 []).ac = 2048 := by decide
theorem test_swap_unset : faultedWith (ran 0 4096 none 0 0xFA00 []) 7 .execute 0 0 = true := by decide
theorem test_insp : (ran 0 3841 none 0 0xFCFF []).sp = 4096 ∧
    faultedWith (ran 0 3842 none 0 0xFCFF []) 4 .execute 0 0 = true := by decide
theorem test_insp_zero : faultedWith (ran 0 4097 none 0 0xFC00 []) 4 .execute 0 0 = true := by decide
theorem test_desp : (ran 0 2303 none 0 0xFEFF []).sp = 2048 ∧
    faultedWith (ran 0 2302 none 0 0xFEFF []) 3 .execute 0 0 = true := by decide
theorem test_desp_one_sided : (ran 0 65535 none 0 0xFE01 []).sp = 65534 := by decide

/-! ### The step, the host and the reset -/

theorem test_fetch_outside : faultedWith (stepState { State.reset with pc := 5000 }) 1 .fetch 5000 5000 = true := by
  decide
theorem test_undefined_word : faultedWith (ran 0 4096 (some 1) 0 0xF934 []) 6 .execute 0 0 = true := by decide
theorem test_halted_step : stepState { State.reset with ended := true } = { State.reset with ended := true } ∧
    stepStatus { State.reset with ended := true } = 8 := by decide
theorem test_faulted_step : stepStatus (ran 0 4096 none 0 0xFA00 []) = 7 ∧
    (serve .reset (ran 0 4096 none 0 0xFA00 [])).fsm = .ready := by decide
theorem test_accessors : acAccessor State.reset = none ∧ peekErr 4096 = true ∧ peekErr 4095 = false ∧
    (ports State.reset).spO = 4096 ∧ peekData (machine 0 4096 none 0 0x7005 []) 0 = some 0x7005 := by decide
theorem test_with_fetch_word : (stepState (State.reset.withFetchWord 16 0x7005)).ac = 5 ∧
    (stepState (State.reset.withFetchWord 16 0x7005)).pc = 1 := by decide

/-! ### The assembler (W7, W8, W9 and the rules of 30_encoding.md section 8) -/

theorem test_assemble_p1 : Assembler.assemble ["  LOCO 5 ; dbg_here".toList, "STOD 100".toList, "JUMP 2".toList] =
    .ok { words := [0x7005, 0x1064, 0x6002], symbols := [], directives := [(1, "here".toList)] } := by decide
theorem test_assemble_forward_label :
    Assembler.assemble ["JUMP done".toList, "LOCO 1".toList, "done: JUMP done".toList] =
    .ok { words := [0x6002, 0x7001, 0x6002], symbols := [("done".toList, 2)], directives := [] } := by decide
theorem test_assemble_duplicate :
    Assembler.assemble ["a: LOCO 1".toList, "   LOCO 2".toList, "a: JUMP 2".toList] =
    .error { kind := .namespaceException, line := 3, text := "a: JUMP 2".toList } := by decide
theorem test_assemble_failures :
    (Assembler.passOneLine Assembler.Partial.empty 1 "loco 1".toList = .error ⟨.undefinedOperation, 1, "loco 1".toList⟩) ∧
    (Assembler.passOneLine Assembler.Partial.empty 1 ": POP".toList = .error ⟨.parseError, 1, ": POP".toList⟩) ∧
    (Assembler.passOneLine Assembler.Partial.empty 1 "DEFN 65536".toList =
      .error ⟨.numberOverflow, 1, "DEFN 65536".toList⟩) ∧
    (Assembler.assemble ["JUMP x".toList, "x:".toList] = .error ⟨.undefinedLabel, 1, "JUMP x".toList⟩) := by decide

/-! ### Witnesses: data that meet the hypotheses of the obligations, clause by clause -/

/-- The next state of an answer. -/
def next (a : Answer) : State :=
  match a with
  | .next t => t
  | .fault _ => State.reset
  | .refused _ => State.reset

theorem witness_DecoderSplitsEveryWordByItsForm :
    (0xF000#16).toNat / 4096 = 15 ∧ (0xEFFF#16).toNat / 4096 ≠ 15 := by decide
theorem witness_EncoderPlacesOpcodeAndOperand :
    (0xF0#8).toNat / 16 = 15 ∧ (0xE0#8).toNat / 16 ≠ 15 := by decide
theorem witness_DecodeInvertsEncodeExactlyOnValidPairs : (0xF0#8).toNat / 16 = 15 := by decide
theorem witness_EncodeOfDecodeIsTheWord : ∃ w i, decode w = .ok i := ⟨0xEFFF, .call 4095, by decide⟩
theorem witness_OnlyOddStackFormWordsAreUndefined :
    decode 0xF100 = .error (.undefinedOperation 0xF1) ∧ (machine 0 4096 none 0 0xF100 []).Running ∧
    memRead (machine 0 4096 none 0 0xF100 []) 0 = .ok 0xF100 ∧ (0xF100#16).toNat / 4096 = 15 ∧
    (0xF100#16).toNat / 256 % 2 = 1 := by decide
theorem witness_DecoderPortsNameTheTableRow :
    decStack 0xF400 = true ∧ decKnown 0xF400 = true ∧ decStack 0x7005 = false ∧ decKnown 0xF100 = false ∧
    decode 0xF400 = .ok (.push 0) := by decide

theorem witness_MemReadConsultsOverlayThenBase :
    4096 ≤ 4096 ∧ (4095 < 4096 ∧ (body 0 4096 none 0 [(4095, 7)]).overlay.lookup 4095 = some 7) ∧
    (body 0 4096 none 0 [(4095, 7)]).overlay.lookup 0 = none := by decide
theorem witness_MemWriteChecksAddressThenValue :
    4096 ≤ 4096 ∧ (4095 < 4096 ∧ 65535 < 65536) ∧ (0 < 4096 ∧ 65535 ≤ 65535) := by decide
theorem witness_ReadReturnsTheLastWrite :
    (∃ t, memWrite State.reset 7 (0x1234#16).toNat = .ok t) ∧
    (∀ c ∈ [(8, 1#16), (4095, 0#16)], c.1 < 4096 ∧ c.1 ≠ 7) ∧ 4096 ≤ 4096 := ⟨⟨_, rfl⟩, by decide⟩
theorem witness_CheckedMovesOfSpTestOneBound :
    255 ≤ 255 ∧ (body 0 2302 none 0 []).sp.toNat < 2048 + 255 ∧ 2048 + 255 ≤ (body 0 2303 none 0 []).sp.toNat ∧
    4096 < (body 0 3842 none 0 []).sp.toNat + 255 ∧ (body 0 3841 none 0 []).sp.toNat + 255 ≤ 4096 := by decide

theorem witness_LoddLoadsTheDirectCell : (body 4095 4096 none 0 []).InExecute := by decide
theorem witness_StodStoresToTheDirectCell :
    ((body 0 4096 (some 5) 0 []).InExecute ∧ (body 0 4096 (some 5) 0 []).acv = true) ∧
    ((body 0 4096 none 0 []).InExecute ∧ (body 0 4096 none 0 []).acv = false) := by decide
theorem witness_LocoLoadsTheConstant : (body 0 4096 none 0 []).InExecute := by decide
theorem witness_AdddAddsTheDirectCell :
    ((body 0 4096 (some 0xFFFF) 0 [(100, 1)]).InExecute ∧ (body 0 4096 (some 0xFFFF) 0 [(100, 1)]).acv = true) ∧
    ((body 0 4096 none 0 []).InExecute ∧ (body 0 4096 none 0 []).acv = false) := by decide
theorem witness_SubdSubtractsTheDirectCell :
    ((body 0 4096 (some 0) 0 [(100, 1)]).InExecute ∧ (body 0 4096 (some 0) 0 [(100, 1)]).acv = true) ∧
    ((body 0 4096 none 0 []).InExecute ∧ (body 0 4096 none 0 []).acv = false) := by decide

theorem witness_JumpTransfersAndSelfJumpHalts :
    (body 4095 4096 none 0 []).InExecute ∧ (7 : Operand12).toNat ≠ (body 4095 4096 none 0 []).pc.toNat ∧
    (4095 : Operand12).toNat = (body 4095 4096 none 0 []).pc.toNat := by decide
theorem witness_JzerJumpsOnZero :
    ((body 4 4096 (some 0) 0 []).InExecute ∧ (body 4 4096 (some 0) 0 []).acv = true) ∧
    ((body 4 4096 none 0 []).InExecute ∧ (body 4 4096 none 0 []).acv = false) := by decide
theorem witness_JnzeJumpsOnNonzero :
    ((body 10 4096 (some 0x8000) 0 []).InExecute ∧ (body 10 4096 (some 0x8000) 0 []).acv = true) ∧
    ((body 10 4096 none 0 []).InExecute ∧ (body 10 4096 none 0 []).acv = false) := by decide
theorem witness_JnegJumpsOnNegative :
    ((body 0 4096 (some 0x8000) 0 []).InExecute ∧ (body 0 4096 (some 0x8000) 0 []).acv = true) ∧
    ((body 0 4096 none 0 []).InExecute ∧ (body 0 4096 none 0 []).acv = false) := by decide
theorem witness_JposJumpsOnZeroOrPositive :
    ((body 0 4096 (some 0x7FFF) 0 []).InExecute ∧ (body 0 4096 (some 0x7FFF) 0 []).acv = true) ∧
    ((body 0 4096 none 0 []).InExecute ∧ (body 0 4096 none 0 []).acv = false) := by decide

theorem witness_LodlLoadsTheLocalCell :
    (body 0 4000 none 0 []).InExecute ∧ 4096 ≤ (body 0 4000 none 0 []).sp.toNat + (96 : Operand12).toNat ∧
    (body 0 4000 none 0 []).sp.toNat + (95 : Operand12).toNat < 4096 := by decide
theorem witness_StolStoresToTheLocalCell :
    ((body 0 4094 none 0 []).InExecute ∧ 4096 ≤ (body 0 4094 none 0 []).sp.toNat + (2 : Operand12).toNat ∧
      (body 0 4094 none 0 []).sp.toNat + (1 : Operand12).toNat < 4096 ∧ (body 0 4094 none 0 []).acv = false) ∧
    ((body 0 4094 (some 8) 0 []).InExecute ∧ (body 0 4094 (some 8) 0 []).acv = true ∧
      (body 0 4094 (some 8) 0 []).sp.toNat + (1 : Operand12).toNat < 4096) := by decide
theorem witness_AddlAddsTheLocalCell :
    ((body 0 4094 none 0 []).InExecute ∧ 4096 ≤ (body 0 4094 none 0 []).sp.toNat + (2 : Operand12).toNat ∧
      (body 0 4094 none 0 []).sp.toNat + (1 : Operand12).toNat < 4096 ∧ (body 0 4094 none 0 []).acv = false) ∧
    ((body 0 4094 (some 7) 0 []).InExecute ∧ (body 0 4094 (some 7) 0 []).acv = true ∧
      (body 0 4094 (some 7) 0 []).sp.toNat + (1 : Operand12).toNat < 4096) := by decide
theorem witness_SublSubtractsTheLocalCell :
    ((body 0 4095 none 0 []).InExecute ∧ 4096 ≤ (body 0 4095 none 0 []).sp.toNat + (1 : Operand12).toNat ∧
      (body 0 4095 none 0 []).sp.toNat + (0 : Operand12).toNat < 4096 ∧ (body 0 4095 none 0 []).acv = false) ∧
    ((body 0 4095 (some 7) 0 []).InExecute ∧ (body 0 4095 (some 7) 0 []).acv = true ∧
      (body 0 4095 (some 7) 0 []).sp.toNat + (0 : Operand12).toNat < 4096) := by decide

theorem witness_CallPushesTheReturnAddress :
    ((body 0 4096 none 99 []).InExecute ∧ 99 ≤ (body 0 4096 none 99 []).depth.toNat) ∧
    ((body 0 2048 none 98 []).InExecute ∧ (body 0 2048 none 98 []).depth.toNat ≤ 98 ∧
      (body 0 2048 none 98 []).sp.toNat ≤ 2048) ∧
    ((body 0 4097 none 0 []).InExecute ∧ (body 0 4097 none 0 []).depth.toNat ≤ 98 ∧
      4097 ≤ (body 0 4097 none 0 []).sp.toNat) ∧
    ((body 0 2049 none 98 []).InExecute ∧ (body 0 2049 none 98 []).depth.toNat ≤ 98 ∧
      2049 ≤ (body 0 2049 none 98 []).sp.toNat ∧ (body 0 2049 none 98 []).sp.toNat ≤ 4096) := by decide
theorem witness_RetnPopsTheProgramCounter :
    ((body 8 4096 none 0 []).InExecute ∧ (body 8 4096 none 0 []).depth.toNat = 0) ∧
    ((body 8 4096 none 1 []).InExecute ∧ 1 ≤ (body 8 4096 none 1 []).depth.toNat ∧
      4096 ≤ (body 8 4096 none 1 []).sp.toNat) ∧
    ((body 8 4095 none 1 []).InExecute ∧ 1 ≤ (body 8 4095 none 1 []).depth.toNat ∧
      (body 8 4095 none 1 []).sp.toNat < 4096) := by decide
theorem witness_PushStoresTheAccumulator :
    ((body 0 2048 none 0 []).InExecute ∧ (body 0 2048 none 0 []).sp.toNat ≤ 2048) ∧
    ((body 0 4097 none 0 []).InExecute ∧ 4097 ≤ (body 0 4097 none 0 []).sp.toNat) ∧
    ((body 0 4096 none 0 []).InExecute ∧ 2049 ≤ (body 0 4096 none 0 []).sp.toNat ∧
      (body 0 4096 none 0 []).sp.toNat ≤ 4096 ∧ (body 0 4096 none 0 []).acv = false) ∧
    ((body 0 2049 (some 1) 0 []).InExecute ∧ 2049 ≤ (body 0 2049 (some 1) 0 []).sp.toNat ∧
      (body 0 2049 (some 1) 0 []).sp.toNat ≤ 4096 ∧ (body 0 2049 (some 1) 0 []).acv = true) := by decide
theorem witness_PushStoresTheAccumulator_then_pop :
    ∃ t u, (body 0 3000 (some 0xBEEF) 0 []).InExecute ∧ (body 0 3000 (some 0xBEEF) 0 []).acv = true ∧
      2049 ≤ (body 0 3000 (some 0xBEEF) 0 []).sp.toNat ∧ (body 0 3000 (some 0xBEEF) 0 []).sp.toNat ≤ 4096 ∧
      exec (.push 0) (body 0 3000 (some 0xBEEF) 0 []) = .next t ∧ u.InExecute ∧ u.sp = t.sp ∧
      memRead u u.sp.toNat = memRead t t.sp.toNat :=
  ⟨_, body 1 2999 none 0 [(2999, 0xBEEF)], by decide, by decide, by decide, by decide, rfl, by decide, by decide,
    by decide⟩
theorem witness_PopLoadsTheAccumulator :
    (body 0 4096 none 0 []).InExecute ∧ 4096 ≤ (body 0 4096 none 0 []).sp.toNat ∧
    (body 0 4095 none 0 []).InExecute ∧ (body 0 4095 none 0 []).sp.toNat < 4096 := by decide
theorem witness_PshiPushesALowCell :
    ((body 0 2048 none 0 []).InExecute ∧ (body 0 2048 none 0 []).sp.toNat ≤ 2048) ∧
    ((body 0 4097 none 0 []).InExecute ∧ 4097 ≤ (body 0 4097 none 0 []).sp.toNat) ∧
    ((body 0 4096 none 0 []).InExecute ∧ 2049 ≤ (body 0 4096 none 0 []).sp.toNat ∧
      (body 0 4096 none 0 []).sp.toNat ≤ 4096) := by decide
theorem witness_PopiPopsIntoALowCell :
    (body 0 4096 none 0 []).InExecute ∧ 4096 ≤ (body 0 4096 none 0 []).sp.toNat ∧
    (body 0 4095 none 0 []).InExecute ∧ (body 0 4095 none 0 []).sp.toNat < 4096 := by decide
theorem witness_SwapExchangesAcAndSp :
    ((body 0 4096 none 0 []).InExecute ∧ (body 0 4096 none 0 []).acv = false) ∧
    ((body 0 4096 (some 3000) 0 []).InExecute ∧ (body 0 4096 (some 3000) 0 []).acv = true) ∧
    ∃ u, exec (.swap 0) (body 0 4096 (some 3000) 0 []) = .next u := ⟨by decide, by decide, _, rfl⟩
theorem witness_InspIncrementsSp :
    ((body 0 3842 none 0 []).InExecute ∧ 4097 ≤ (body 0 3842 none 0 []).sp.toNat + (255 : Byte).toNat) ∧
    ((body 0 3841 none 0 []).InExecute ∧ (body 0 3841 none 0 []).sp.toNat + (255 : Byte).toNat ≤ 4096) := by decide
theorem witness_DespDecrementsSp :
    ((body 0 2302 none 0 []).InExecute ∧ (body 0 2302 none 0 []).sp.toNat < 2048 + (255 : Byte).toNat) ∧
    ((body 0 2303 none 0 []).InExecute ∧ 2048 + (255 : Byte).toNat ≤ (body 0 2303 none 0 []).sp.toNat) := by decide

theorem witness_StepRunsTheDecodedInstruction :
    (machine 0 4096 none 0 0x7005 []).Running ∧ memRead (machine 0 4096 none 0 0x7005 []) 0 = .ok 0x7005 ∧
    decode 0x7005 = .ok (.loco 5) := by decide
theorem witness_HaltedStepAnswersProgramCompleted : ({ State.reset with ended := true } : State).Halted := by decide
theorem witness_FaultedStepIsRefusedUntilReset : (ran 0 4096 none 0 0xFA00 []).Faulted := by decide
theorem witness_FetchReadsTheCellAtPcOrFaults :
    (({ State.reset with pc := 4096 } : State).Running ∧ 4096 ≤ ({ State.reset with pc := 4096 } : State).pc.toNat) ∧
    ((machine 4095 4096 none 0 0x7005 []).Running ∧ memRead (machine 4095 4096 none 0 0x7005 []) 4095 = .ok 0x7005 ∧
      (machine 4095 4096 none 0 0x7005 []).pc.toNat < 4096) := by decide
theorem witness_StepOutcomeFollowsTheFlags :
    (∃ t, (machine 0 4096 none 0 0x7005 []).Running ∧ step (machine 0 4096 none 0 0x7005 []) = .next t ∧
      t.faulted = false ∧ t.ended = false) ∧
    (∃ t, (machine 2 4096 none 0 0x6002 []).Running ∧ step (machine 2 4096 none 0 0x6002 []) = .next t ∧
      t.faulted = false ∧ t.ended = true) ∧
    (∃ t, (machine 0 4096 none 0 0xFA00 []).Running ∧ step (machine 0 4096 none 0 0xFA00 []) = .next t ∧
      t.faulted = true ∧ t.Faulted) :=
  ⟨⟨_, by decide, rfl, by decide⟩, ⟨_, by decide, rfl, by decide⟩, ⟨_, by decide, rfl, by decide⟩⟩
theorem witness_FaultEntryWritesTheRecord :
    (∃ f a, f = Fault.addressOutOfBounds a) ∧ (∀ a, Fault.stackOverflow 0 ≠ .addressOutOfBounds a) :=
  ⟨⟨_, 4096, rfl⟩, by intro a h; cases h⟩
theorem witness_FaultEntryWritesTheRecord_in_a_step :
    (∃ t, (machine 0 4096 none 0 0xF100 []).Running ∧ step (machine 0 4096 none 0 0xF100 []) = .next t ∧
      t.faulted = true) ∧
    (∃ t, ({ State.reset with pc := 4096 } : State).Running ∧ step { State.reset with pc := 4096 } = .next t ∧
      t.faulted = true) := ⟨⟨_, by decide, rfl, rfl⟩, ⟨_, by decide, rfl, rfl⟩⟩
theorem witness_EveryStepAnswersAndKeepsTheBase :
    ∃ t, step (machine 0 4096 none 0 0x7005 []) = .next t ∧ t.faulted = false := ⟨_, rfl, rfl⟩
theorem witness_StepKeepsTheBoundaryConditions :
    (machine 0 4096 none 0 0x7005 []).Inv ∧ ∃ t, step (machine 0 4096 none 0 0x7005 []) = .next t :=
  ⟨by decide, _, rfl⟩
theorem witness_LaunchMeetsTheBoundaryConditions : imageFits (List.replicate 4096 0) = true := by
  rw [imageFits, List.length_replicate]; decide

theorem witness_EveryInstructionAdvancesOrTransfers :
    ∀ i ∈ [Instr.loco 5, .jump 7, .jump 4095], (body 4095 4096 none 0 []).InExecute ∧
      exec i (body 4095 4096 none 0 []) = .next (next (exec i (body 4095 4096 none 0 []))) ∧
      (next (exec i (body 4095 4096 none 0 []))).faulted = false ∧
      (i = .loco 5 → transferTarget (body 4095 4096 none 0 []) i = none) ∧
      (i = .jump 7 → transferTarget (body 4095 4096 none 0 []) i = some 7) ∧
      (i = .jump 4095 → transferTarget (body 4095 4096 none 0 []) i = some (body 4095 4096 none 0 []).pc) ∧
      (body 4095 4096 none 0 []).pc.toNat = 4095 := by
  intro i hi
  simp only [List.mem_cons, List.not_mem_nil, or_false] at hi
  rcases hi with rfl | rfl | rfl <;> exact ⟨by decide, rfl, rfl, by decide, by decide, by decide, by decide⟩
theorem witness_EveryInstructionAdvancesOrTransfers_after_the_last_cell :
    ∃ t, exec (.loco 5) (body 4095 4096 none 0 []) = .next t ∧ t.pc = (body 4095 4096 none 0 []).pc + 1 ∧
      t.ended = false := ⟨_, rfl, by decide, rfl⟩
theorem witness_AccumulatorValidBitFollowsItsWriters :
    (∃ t, exec (.swap 0) (body 0 4096 (some 5) 0 []) = .next t ∧ t.faulted = false ∧ writesAc (.swap 0) = true ∧
      readsAc (.swap 0) = true ∧ (body 0 4096 (some 5) 0 []).acv = true ∧ (body 0 4096 (some 5) 0 []).InExecute) ∧
    (∃ t, exec (.insp 0) (body 0 4096 none 0 []) = .next t ∧ t.faulted = false ∧ writesAc (.insp 0) = false) :=
  ⟨⟨_, rfl, by decide⟩, ⟨_, rfl, by decide⟩⟩
theorem witness_OnlyCallAndReturnMoveDepth :
    ((body 0 4096 none 98 []).InExecute ∧ (body 0 4096 none 98 []).depth.toNat < 100 ∧
      ∃ t, exec (.call 16) (body 0 4096 none 98 []) = .next t ∧ t.faulted = false) ∧
    ((body 8 4095 none 1 [(4095, 3)]).InExecute ∧ (body 8 4095 none 1 [(4095, 3)]).depth.toNat < 100 ∧
      ∃ t, exec (.retn 0) (body 8 4095 none 1 [(4095, 3)]) = .next t ∧ t.faulted = false) ∧
    ((∀ a, Instr.loco 5 ≠ .call a) ∧ (∀ x, Instr.loco 5 ≠ .retn x) ∧
      ∃ t, exec (.loco 5) (body 0 4096 none 99 []) = .next t ∧ t.faulted = false) :=
  ⟨⟨by decide, by decide, _, rfl, rfl⟩, ⟨by decide, by decide, _, rfl, rfl⟩,
    ⟨(by intro a h; cases h), (by intro x h; cases h), _, rfl, rfl⟩⟩
theorem witness_OnlyASelfJumpSetsTheHaltFlag :
    ((machine 2 4096 none 0 0x6002 []).Running ∧
      ∃ t, step (machine 2 4096 none 0 0x6002 []) = .next t ∧ t.faulted = false ∧ t.ended = true) ∧
    ({ State.reset with ended := true } : State).Halted := ⟨⟨by decide, _, rfl, by decide⟩, by decide⟩
theorem witness_SpStaysInRangeWithoutSwap :
    (SpInRange (machine 0 4096 (some 7) 0 0xF400 []).sp ∧
      (∀ k < 1, ¬ ExecutesSwap (stepState^[k] (machine 0 4096 (some 7) 0 0xF400 []))) ∧
      (stepState^[1] (machine 0 4096 (some 7) 0 0xF400 [])).faulted = false) ∧
    (SpInRange (body 0 2049 (some 7) 0 []).sp ∧ (body 0 2049 (some 7) 0 []).InExecute ∧
      ∃ t, exec (.push 0) (body 0 2049 (some 7) 0 []) = .next t ∧ t.faulted = false) := by
  refine ⟨⟨by decide, ?_, by decide⟩, by decide, by decide, _, rfl, by decide⟩
  intro k hk
  obtain rfl : k = 0 := by omega
  rintro ⟨-, w, b, hw, hd⟩
  have hw' : w = 0xF400#16 := by
    have : memRead (machine 0 4096 (some 7) 0 0xF400 []) 0 = .ok 0xF400 := by decide
    exact Except.ok.inj (hw.symm.trans this)
  rw [hw', show decode 0xF400#16 = .ok (.push 0) by decide] at hd
  cases hd
theorem witness_InstructionsWriteOnlyTheirOneCell :
    (body 0 4096 (some 7) 0 []).InExecute ∧
    (∃ t, exec (.push 0) (body 0 4096 (some 7) 0 []) = .next t ∧ t.faulted = false) ∧
    storeAddress (body 0 4096 (some 7) 0 []) (.push 0) ≠ some 0 ∧
    storeAddress (body 0 4096 (some 7) 0 []) (.push 0) = some 4095 := ⟨by decide, ⟨_, rfl, by decide⟩, by decide⟩
theorem witness_FaultsComeFromTheirInstructions :
    ((body 0 4096 none 0 []).InExecute ∧
      ∃ t, exec (.push 0) (body 0 4096 none 0 []) = .next t ∧ t.faulted = true ∧ t.faultCode ≠ 1) ∧
    ∃ t, exec (.pop 0) (body 0 4096 none 0 []) = .next t ∧ t.faulted = true ∧ t.faultCode = 1 :=
  ⟨⟨by decide, _, rfl, by decide⟩, _, rfl, by decide⟩
theorem witness_UnsetAccumulatorBitsAreNeverSeen :
    ((body 0 4096 none 0 []).InExecute ∧ (body 0 4096 none 0 []).acv = false) ∧
    (∃ t u, exec (.loco 5) (body 0 4096 none 0 []) = .next t ∧
      exec (.loco 5) { body 0 4096 none 0 [] with ac := 9 } = .next u ∧ t.faulted = false ∧ t.acv = true) ∧
    (∃ t u, exec (.insp 0) (body 0 4096 none 0 []) = .next t ∧
      exec (.insp 0) { body 0 4096 none 0 [] with ac := 9 } = .next u ∧ t.faulted = false ∧ t.acv = false) ∧
    (∃ t u, exec (.push 0) (body 0 4096 none 0 []) = .next t ∧
      exec (.push 0) { body 0 4096 none 0 [] with ac := 9 } = .next u ∧ t.faulted = true) :=
  ⟨by decide, ⟨_, _, rfl, rfl, by decide⟩, ⟨_, _, rfl, rfl, by decide⟩, ⟨_, _, rfl, rfl, by decide⟩⟩

theorem witness_StoreIsSeenByTheNextFetch :
    ∃ t, memWrite State.reset 0 (0x7009#16).toNat = .ok t ∧ t.pc.toNat = 0 ∧ t.Running ∧
      decode 0x7009 = .ok (.loco 9) := ⟨_, rfl, by decide⟩
theorem witness_CallThenReturnResumesAfterTheCall :
    ∃ t u, (body 2 2049 none 98 []).InExecute ∧ (6 : Operand12).toNat ≠ (body 2 2049 none 98 []).pc.toNat ∧
      (body 2 2049 none 98 []).depth.toNat ≤ 98 ∧ 2049 ≤ (body 2 2049 none 98 []).sp.toNat ∧
      (body 2 2049 none 98 []).sp.toNat ≤ 4096 ∧ exec (.call 6) (body 2 2049 none 98 []) = .next t ∧
      u.InExecute ∧ u.sp = t.sp ∧ u.depth = t.depth ∧ memRead u u.sp.toNat = memRead t t.sp.toNat ∧
      u.pc ≠ (body 2 2049 none 98 []).pc + 1 :=
  ⟨_, body 8 2048 none 99 [(2048, 3)], by decide, by decide, by decide, by decide, by decide, rfl, by decide, by decide,
    by decide, by decide, by decide⟩
theorem witness_ResetRestoresEverythingButTheBase : 4095 < 4096 := by decide
theorem witness_RunReturnsAtTheEndOfTheProgram :
    ((machine 2 4096 none 0 0x6002 []).Running ∧ ∃ t, run 1 (machine 2 4096 none 0 0x6002 []) = (.returned 0, t)) ∧
    ((machine 2 4096 none 0 0xFA00 []).Running ∧ ∃ t, run 1 (machine 2 4096 none 0 0xFA00 []) = (.returned 7, t)) ∧
    ({ State.reset with ended := true } : State).ended = true := ⟨⟨by decide, _, rfl⟩, ⟨by decide, _, rfl⟩, rfl⟩

theorem witness_AssembledLabelsAreUniqueProgramAddresses :
    ∃ p, Assembler.assemble ["a: JUMP b".toList, "b: JUMP b ; dbg_x".toList] = .ok p := ⟨_, rfl⟩
theorem witness_CommentsDoNotReachTheWords :
    ∃ p, Assembler.assemble ["; dbg_start".toList, "a: LOCO 5 ; five".toList] = .ok p := ⟨_, rfl⟩
theorem witness_PatchingKeepsTheOpcode :
    4095 < 4096 ∧ (0xF0#8).toNat / 16 = 15 ∧ (0xE0#8).toNat % 16 = 0 := by decide

end Sys2Proof.Tests
end

/-! What the body of an instruction leaves when it raises nothing, said once for all 23 instructions, and the faults it can
raise. The statements about `acv`, `depth`, `end` and the step boundary are read off these. -/

namespace Sys2Proof.Machine

/-! ### Counting a word up and down by 1 -/

theorem ofNat_toNat_add_one {n : Nat} (w : BitVec n) : BitVec.ofNat n (w.toNat + 1) = w + 1 := by
  simp [BitVec.ofNat_add]

theorem toNat_sub_one {n : Nat} {w : BitVec n} (h : 1 ≤ w.toNat) : (w - 1).toNat = w.toNat - 1 := by
  have h1 : (1 : BitVec n).toNat = 1 := Nat.mod_eq_of_lt (Nat.lt_of_le_of_lt h w.isLt)
  rw [BitVec.toNat_sub_of_le (by rw [BitVec.le_def]; omega), h1]

theorem ofNat_toNat_sub_one {n : Nat} {w : BitVec n} (h : 1 ≤ w.toNat) : BitVec.ofNat n (w.toNat - 1) = w - 1 := by
  rw [← toNat_sub_one h, BitVec.ofNat_toNat, BitVec.setWidth_eq]

/-! ### The shared operations, inverted -/

theorem requireAc_eq_ok {s : State} {a : Word} : requireAc s = .ok a ↔ s.acv = true ∧ a = s.ac := by
  cases h : s.acv with
  | false => simp [requireAc_unset h]
  | true => simp [requireAc_valid h, eq_comm]

theorem spDec_eq_ok {s t : State} {k : Nat} :
    spDec s k = .ok t ↔ 2048 + k ≤ s.sp.toNat ∧ t = { s with sp := BitVec.ofNat 16 (s.sp.toNat - k) } := by
  rcases Nat.lt_or_ge s.sp.toNat (2048 + k) with low | ok
  · simp [spDec_low low, low]
  · simp [spDec_ok ok, ok, eq_comm]

theorem spInc_eq_ok {s t : State} {k : Nat} :
    spInc s k = .ok t ↔ s.sp.toNat + k ≤ 4096 ∧ t = { s with sp := BitVec.ofNat 16 (s.sp.toNat + k) } := by
  rcases Nat.lt_or_ge 4096 (s.sp.toNat + k) with high | ok
  · simp [spInc_high high, high]
  · simp [spInc_ok ok, ok, eq_comm]

theorem spDec_one_eq_ok {s t : State} :
    spDec s 1 = .ok t ↔ 2049 ≤ s.sp.toNat ∧ t = { s with sp := s.sp - 1 } := by
  rw [spDec_eq_ok]
  refine and_congr_right fun h => ?_
  rw [ofNat_toNat_sub_one (by omega)]

theorem spInc_one_eq_ok {s t : State} :
    spInc s 1 = .ok t ↔ s.sp.toNat + 1 ≤ 4096 ∧ t = { s with sp := s.sp + 1 } := by
  rw [spInc_eq_ok, ofNat_toNat_add_one]

theorem depthInc_deep {s : State} (h : 99 ≤ s.depth.toNat) : depthInc s = .error (.infiniteRecursion s.pcb) := by
  unfold depthInc
  rw [if_pos (by simp; omega)]

theorem depthInc_ok {s : State} (h : s.depth.toNat < 99) : depthInc s = .ok { s with depth := s.depth + 1 } := by
  unfold depthInc
  rw [if_neg (by simp; omega), ofNat_toNat_add_one]

theorem depthDec_zero {s : State} (h : s.depth.toNat = 0) : depthDec s = .error (.stackUnderflow s.pcb) := by
  unfold depthDec
  rw [if_pos (by omega)]

theorem depthDec_ok {s : State} (h : 1 ≤ s.depth.toNat) : depthDec s = .ok { s with depth := s.depth - 1 } := by
  unfold depthDec
  rw [if_neg (by omega), ofNat_toNat_sub_one h]

theorem depthInc_eq_ok {s t : State} :
    depthInc s = .ok t ↔ s.depth.toNat < 99 ∧ t = { s with depth := s.depth + 1 } := by
  rcases Nat.lt_or_ge s.depth.toNat 99 with lt | deep
  · simp [depthInc_ok lt, lt, eq_comm]
  · simp [depthInc_deep deep, deep]

theorem depthDec_eq_ok {s t : State} :
    depthDec s = .ok t ↔ 1 ≤ s.depth.toNat ∧ t = { s with depth := s.depth - 1 } := by
  rcases Nat.eq_zero_or_pos s.depth.toNat with zero | pos
  · simp [depthDec_zero zero, zero]
  · simp [depthDec_ok pos, Nat.succ_le_iff, pos, eq_comm]

theorem memWrite_eq_ok {s t : State} {a v : Nat} :
    memWrite s a v = .ok t ↔
      a < 4096 ∧ v ≤ 65535 ∧ t = { s with overlay := s.overlay.write a (BitVec.ofNat 16 v) } :=
  ⟨memWrite_ok, fun ⟨ha, hv, ht⟩ => ht ▸ memWrite_inside s ha hv⟩

theorem memWrite_word_eq_ok {s t : State} {a : Nat} {v : Word} :
    memWrite s a v.toNat = .ok t ↔ a < 4096 ∧ t = { s with overlay := s.overlay.write a v } :=
  ⟨fun h => by simpa using (memWrite_ok h).imp_right And.right, fun ⟨ha, ht⟩ => ht ▸ memWrite_word s v ha⟩

theorem jumpIf_eq_ok {test : Word → Bool} {arg : Operand12} {s t : State} :
    jumpIf test arg s = .ok t ↔ s.acv = true ∧ t = { s with pc := if test s.ac then target arg else s.pc } := by
  simp only [jumpIf, bind_eq_ok, requireAc_eq_ok, pure_eq_ok, Except.ok.injEq]
  constructor
  · rintro ⟨_, ⟨hv, rfl⟩, rfl⟩
    exact ⟨hv, by split <;> rfl⟩
  · rintro ⟨hv, rfl⟩
    exact ⟨_, ⟨hv, rfl⟩, by split <;> rfl⟩

/-- The body of LODD and LODL. -/
theorem load_eq_ok {s u : State} {a : Nat} :
    (memRead s a >>= fun v => pure (setAc s v)) = .ok u ↔ ∃ v, memRead s a = .ok v ∧ u = setAc s v := by
  simp only [bind_eq_ok, pure_eq_ok, Except.ok.injEq, @eq_comm _ u]

/-- The body of ADDD, SUBD, ADDL and SUBL. -/
theorem combine_eq_ok {s u : State} {a : Nat} {op : Word → Word → Word} :
    (memRead s a >>= fun v => requireAc s >>= fun c => pure (setAc s (op c v))) = .ok u ↔
      ∃ v, memRead s a = .ok v ∧ s.acv = true ∧ u = setAc s (op s.ac v) := by
  simp only [bind_eq_ok, requireAc_eq_ok, pure_eq_ok, Except.ok.injEq]
  constructor
  · rintro ⟨v, hv, _, ⟨ha, rfl⟩, rfl⟩
    exact ⟨v, hv, ha, rfl⟩
  · rintro ⟨v, hv, ha, rfl⟩
    exact ⟨v, hv, s.ac, ⟨ha, rfl⟩, rfl⟩

/-! ### What a body that completes leaves -/

/-- `Completes s i u`: the body of `i`, started in `s`, raises nothing and leaves `u`, which ADVANCE then takes on
(40_step_cycle.md R125). The premises are the checks the body passed. -/
inductive Completes (s : State) : Instr → State → Prop
  | lodd {arg v} : memRead s (directAddr arg) = .ok v → Completes s (.lodd arg) (setAc s v)
  | stod {arg} : s.acv = true →
      Completes s (.stod arg) { s with overlay := s.overlay.write (directAddr arg) s.ac }
  | addd {arg v} : memRead s (directAddr arg) = .ok v → s.acv = true →
      Completes s (.addd arg) (setAc s (add16 s.ac v))
  | subd {arg v} : memRead s (directAddr arg) = .ok v → s.acv = true →
      Completes s (.subd arg) (setAc s (sub16 s.ac v))
  | jpos {arg} : s.acv = true →
      Completes s (.jpos arg) { s with pc := if !neg16 s.ac then target arg else s.pc }
  | jzer {arg} : s.acv = true → Completes s (.jzer arg) { s with pc := if isZero s.ac then target arg else s.pc }
  | jump {arg} :
      Completes s (.jump arg) { s with ended := s.ended || decide (target arg = s.pcb), pc := target arg }
  | loco {arg} : Completes s (.loco arg) (setAc s (immediate arg))
  | lodl {arg v} : memRead s (frameAddr s arg) = .ok v → Completes s (.lodl arg) (setAc s v)
  | stol {arg} : frameAddr s arg < 4096 → s.acv = true →
      Completes s (.stol arg) { s with overlay := s.overlay.write (frameAddr s arg) s.ac }
  | addl {arg v} : memRead s (frameAddr s arg) = .ok v → s.acv = true →
      Completes s (.addl arg) (setAc s (add16 s.ac v))
  | subl {arg v} : memRead s (frameAddr s arg) = .ok v → s.acv = true →
      Completes s (.subl arg) (setAc s (sub16 s.ac v))
  | jneg {arg} : s.acv = true → Completes s (.jneg arg) { s with pc := if neg16 s.ac then target arg else s.pc }
  | jnze {arg} : s.acv = true →
      Completes s (.jnze arg) { s with pc := if !isZero s.ac then target arg else s.pc }
  | call {arg} : s.depth.toNat < 99 → 2049 ≤ s.sp.toNat → s.sp.toNat - 1 < 4096 →
      Completes s (.call arg) { s with
        depth := s.depth + 1, sp := s.sp - 1
        overlay := s.overlay.write (s.sp.toNat - 1) (s.pcb + 1), pc := target arg }
  | pshi {arg v} : 2049 ≤ s.sp.toNat → s.sp.toNat - 1 < 4096 → memRead s (lowAddr arg) = .ok v →
      Completes s (.pshi arg) { s with
        sp := s.sp - 1, overlay := s.overlay.write (s.sp.toNat - 1) v }
  | popi {arg v} : memRead s s.sp.toNat = .ok v →
      Completes s (.popi arg) { s with
        sp := s.sp + 1, overlay := s.overlay.write (lowAddr arg) v }
  | push {ignored} : 2049 ≤ s.sp.toNat → s.sp.toNat - 1 < 4096 → s.acv = true →
      Completes s (.push ignored) { s with
        sp := s.sp - 1, overlay := s.overlay.write (s.sp.toNat - 1) s.ac }
  | pop {ignored v} : memRead s s.sp.toNat = .ok v →
      Completes s (.pop ignored) { setAc s v with sp := s.sp + 1 }
  | retn {ignored v} : 1 ≤ s.depth.toNat → memRead s s.sp.toNat = .ok v →
      Completes s (.retn ignored) { s with
        depth := s.depth - 1, pc := v, sp := s.sp + 1 }
  | swap {ignored} : s.acv = true → Completes s (.swap ignored) (setAc { s with sp := s.ac } s.sp)
  | insp {arg} : s.sp.toNat + count arg ≤ 4096 →
      Completes s (.insp arg) { s with sp := BitVec.ofNat 16 (s.sp.toNat + count arg) }
  | desp {arg} : 2048 + count arg ≤ s.sp.toNat →
      Completes s (.desp arg) { s with sp := BitVec.ofNat 16 (s.sp.toNat - count arg) }

theorem completes_of_finish {i : Instr} {s t : State} {body : Except Fault State}
    (hb : ∀ u, body = .ok u → Completes s i u) (h : finish s body = .next t) (hf : t.faulted = false) :
    ∃ u, Completes s i u ∧ t = advance u := by
  obtain ⟨u, hu, rfl⟩ := finish_completes h hf
  exact ⟨u, hb u hu, rfl⟩

/-- Everything an instruction that takes no fault can have done. -/
theorem exec_completes {i : Instr} {s t : State} (h : exec i s = .next t) (hf : t.faulted = false) :
    ∃ u, Completes s i u ∧ t = advance u := by
  cases i with
  | lodd arg =>
    refine completes_of_finish (fun u hu => ?_) h hf
    obtain ⟨v, hv, rfl⟩ := load_eq_ok.1 hu
    exact .lodd hv
  | lodl arg =>
    refine completes_of_finish (fun u hu => ?_) h hf
    obtain ⟨v, hv, rfl⟩ := load_eq_ok.1 hu
    exact .lodl hv
  | addd arg =>
    refine completes_of_finish (fun u hu => ?_) h hf
    obtain ⟨v, hv, ha, rfl⟩ := combine_eq_ok.1 hu
    exact .addd hv ha
  | subd arg =>
    refine completes_of_finish (fun u hu => ?_) h hf
    obtain ⟨v, hv, ha, rfl⟩ := combine_eq_ok.1 hu
    exact .subd hv ha
  | addl arg =>
    refine completes_of_finish (fun u hu => ?_) h hf
    obtain ⟨v, hv, ha, rfl⟩ := combine_eq_ok.1 hu
    exact .addl hv ha
  | subl arg =>
    refine completes_of_finish (fun u hu => ?_) h hf
    obtain ⟨v, hv, ha, rfl⟩ := combine_eq_ok.1 hu
    exact .subl hv ha
  | stod arg =>
    refine completes_of_finish (fun u hu => ?_) h hf
    simp only [bind_eq_ok, requireAc_eq_ok, memWrite_word_eq_ok] at hu
    obtain ⟨_, ⟨ha, rfl⟩, -, rfl⟩ := hu
    exact .stod ha
  | stol arg =>
    refine completes_of_finish (fun u hu => ?_) h hf
    simp only [bind_eq_ok, requireAc_eq_ok, memWrite_word_eq_ok] at hu
    obtain ⟨-, -, _, ⟨ha, rfl⟩, hlt, rfl⟩ := hu
    exact .stol hlt ha
  | jpos arg =>
    refine completes_of_finish (fun u hu => ?_) h hf
    obtain ⟨ha, rfl⟩ := jumpIf_eq_ok.1 hu
    exact .jpos ha
  | jzer arg =>
    refine completes_of_finish (fun u hu => ?_) h hf
    obtain ⟨ha, rfl⟩ := jumpIf_eq_ok.1 hu
    exact .jzer ha
  | jneg arg =>
    refine completes_of_finish (fun u hu => ?_) h hf
    obtain ⟨ha, rfl⟩ := jumpIf_eq_ok.1 hu
    exact .jneg ha
  | jnze arg =>
    refine completes_of_finish (fun u hu => ?_) h hf
    obtain ⟨ha, rfl⟩ := jumpIf_eq_ok.1 hu
    exact .jnze ha
  | jump arg =>
    refine completes_of_finish (body := .ok _) (fun u hu => ?_) h hf
    cases hu
    convert Completes.jump (s := s) (arg := arg) using 1
    by_cases hself : target arg = s.pcb <;> simp [hself]
  | loco arg =>
    refine completes_of_finish (body := .ok _) (fun u hu => ?_) h hf
    cases hu
    exact .loco
  | call arg =>
    refine completes_of_finish (fun u hu => ?_) h hf
    simp only [bind_eq_ok, depthInc_eq_ok, spDec_one_eq_ok, memWrite_eq_ok, pure_eq_ok, Except.ok.injEq,
      ofNat_toNat_add_one] at hu
    obtain ⟨_, ⟨hd, rfl⟩, _, ⟨hsp, rfl⟩, _, ⟨hlt, -, rfl⟩, rfl⟩ := hu
    rw [toNat_sub_one (le_trans (by decide) hsp)] at hlt ⊢
    exact .call hd hsp hlt
  | pshi arg =>
    refine completes_of_finish (fun u hu => ?_) h hf
    simp only [bind_eq_ok, spDec_one_eq_ok, memWrite_word_eq_ok] at hu
    obtain ⟨_, ⟨hsp, rfl⟩, v, hv, hlt, rfl⟩ := hu
    rw [toNat_sub_one (le_trans (by decide) hsp)] at hlt ⊢
    exact .pshi hsp hlt hv
  | popi arg =>
    refine completes_of_finish (fun u hu => ?_) h hf
    simp only [bind_eq_ok, memWrite_word_eq_ok, spInc_one_eq_ok] at hu
    obtain ⟨v, hv, _, ⟨-, rfl⟩, -, rfl⟩ := hu
    exact .popi hv
  | push ignored =>
    refine completes_of_finish (fun u hu => ?_) h hf
    simp only [bind_eq_ok, spDec_one_eq_ok, requireAc_eq_ok, memWrite_word_eq_ok] at hu
    obtain ⟨_, ⟨hsp, rfl⟩, -, -, _, ⟨ha, rfl⟩, hlt, rfl⟩ := hu
    rw [toNat_sub_one (le_trans (by decide) hsp)] at hlt ⊢
    exact .push hsp hlt ha
  | pop ignored =>
    refine completes_of_finish (fun u hu => ?_) h hf
    simp only [bind_eq_ok, spInc_one_eq_ok] at hu
    obtain ⟨v, hv, -, rfl⟩ := hu
    exact .pop hv
  | retn ignored =>
    refine completes_of_finish (fun u hu => ?_) h hf
    simp only [bind_eq_ok, depthDec_eq_ok, spInc_one_eq_ok] at hu
    obtain ⟨_, ⟨hd, rfl⟩, v, hv, -, rfl⟩ := hu
    exact .retn hd hv
  | swap ignored =>
    refine completes_of_finish (fun u hu => ?_) h hf
    simp only [bind_eq_ok, requireAc_eq_ok, pure_eq_ok, Except.ok.injEq] at hu
    obtain ⟨_, ⟨ha, rfl⟩, rfl⟩ := hu
    exact .swap ha
  | insp arg =>
    refine completes_of_finish (fun u hu => ?_) h hf
    obtain ⟨hsp, rfl⟩ := spInc_eq_ok.1 hu
    exact .insp hsp
  | desp arg =>
    refine completes_of_finish (fun u hu => ?_) h hf
    obtain ⟨hsp, rfl⟩ := spDec_eq_ok.1 hu
    exact .desp hsp

end Sys2Proof.Machine

/-! ### What a body that completes keeps -/

namespace Sys2Proof.Machine

variable {s t u : State} {i : Instr}

theorem lowAddr_lt (arg : Byte) : lowAddr arg < 4096 := Nat.lt_trans arg.isLt (by decide)

/-- Every store lies inside memory, so the overlay stays canonical (20_memory.md R50). -/
theorem Completes.overlay_wf (h : Completes s i u) (hs : s.overlay.wf) : u.overlay.wf := by
  cases h with
  | stod => exact Memory.wf_write _ hs (BitVec.isLt _)
  | popi => exact Memory.wf_write _ hs (lowAddr_lt _)
  | stol hlt | call _ _ hlt | pshi _ hlt | push _ hlt => exact Memory.wf_write _ hs hlt
  | _ => exact hs

theorem Completes.acv_of_writesAc (h : Completes s i u) (hw : writesAc i = true) : u.acv = true := by
  cases h with
  | lodd | addd | subd | loco | lodl | addl | subl | pop | swap => rfl
  | _ => cases hw

theorem Completes.ac_of_not_writesAc (h : Completes s i u) (hw : writesAc i = false) :
    u.ac = s.ac ∧ u.acv = s.acv := by
  cases h with
  | lodd | addd | subd | loco | lodl | addl | subl | pop | swap => cases hw
  | _ => exact ⟨rfl, rfl⟩

/-- A reader of `ac` has passed RequireAc (10_state.md R27). -/
theorem Completes.acv_of_readsAc (h : Completes s i u) (hr : readsAc i = true) : s.acv = true := by
  cases h with
  | stod ha | addd _ ha | subd _ ha | stol _ ha | addl _ ha | subl _ ha | jpos ha | jzer ha | jneg ha | jnze ha
  | push _ _ ha | swap ha => exact ha
  | _ => cases hr

/-- The three ways `depth` can go (10_state.md R37). -/
theorem Completes.depth_cases (h : Completes s i u) :
    (∃ a, i = .call a ∧ s.depth.toNat < 99 ∧ u.depth = s.depth + 1) ∨
    (∃ x, i = .retn x ∧ 1 ≤ s.depth.toNat ∧ u.depth = s.depth - 1) ∨
    ((∀ a, i ≠ .call a) ∧ (∀ x, i ≠ .retn x) ∧ u.depth = s.depth) := by
  cases h with
  | call hd => exact .inl ⟨_, rfl, hd, rfl⟩
  | retn hd => exact .inr (.inl ⟨_, rfl, hd, rfl⟩)
  | _ => exact .inr (.inr ⟨nofun, nofun, rfl⟩)

theorem toNat_add_one_of_lt {n : Nat} {w : BitVec n} (h : w.toNat + 1 < 2 ^ n) : (w + 1).toNat = w.toNat + 1 := by
  rw [← ofNat_toNat_add_one, BitVec.toNat_ofNat, Nat.mod_eq_of_lt h]

theorem Completes.depth_lt (h : Completes s i u) (hs : s.depth.toNat < 100) : u.depth.toNat < 100 := by
  obtain ⟨-, -, hd, hu⟩ | ⟨-, -, hd, hu⟩ | ⟨-, -, hu⟩ := h.depth_cases
  · rw [hu, toNat_add_one_of_lt (by omega)]
    omega
  · rw [hu, toNat_sub_one hd]
    omega
  · rwa [hu]

/-- Only a self-jump sets the halt flag (10_state.md R39). -/
theorem Completes.ended_iff (h : Completes s i u) :
    u.ended = true ↔ s.ended = true ∨ ∃ a, i = .jump a ∧ target a = s.pcb := by
  cases h with
  | jump => simp
  | _ => simp

/-! ### What a body can raise -/

/-- Whatever `x` raises has one of these codes, and an AddressOutOfBounds carries an address outside memory. In the lemmas
below the membership of an operation's own code is found by `simp` when `codes` is an instruction's list. -/
def RaisesOnly {α : Type} (codes : List (BitVec 4)) (x : Except Fault α) : Prop :=
  ∀ f, x = .error f → f.code ∈ codes ∧ (f.code = 1 → 4096 ≤ f.addr.toNat)

section
variable {α β : Type} {cs : List (BitVec 4)}

theorem RaisesOnly.ok (a : α) : RaisesOnly cs (.ok a) := nofun

theorem RaisesOnly.bind {x : Except Fault α} {k : α → Except Fault β} (hx : RaisesOnly cs x)
    (hk : ∀ a, x = .ok a → RaisesOnly cs (k a)) : RaisesOnly cs (x >>= k) := by
  intro f hf
  rcases bind_eq_error.1 hf with h | ⟨a, ha, h⟩
  · exact hx f h
  · exact hk a ha f h

theorem raisesOnly_error {f : Fault} (h : f.code ∈ cs) (ha : f.code = 1 → 4096 ≤ f.addr.toNat) :
    RaisesOnly (α := α) cs (.error f) := by
  rintro f ⟨⟩
  exact ⟨h, ha⟩

/-- The 17 bits of `fault_addr` hold every address an instruction can form. -/
theorem raisesOnly_addressOutOfBounds {a : Nat} (h : 1 ∈ cs) (ge : 4096 ≤ a) (lt : a < 131072) :
    RaisesOnly (α := α) cs (.error (.addressOutOfBounds a)) := by
  refine raisesOnly_error h fun _ => ?_
  simp only [Fault.addr, BitVec.toNat_ofNat]
  omega

theorem raisesOnly_memRead_inside {a : Nat} (h : a < 4096) : RaisesOnly cs (memRead s a) := by
  obtain ⟨v, hv⟩ := memRead_inside s h
  exact hv ▸ .ok v

theorem raisesOnly_memRead {a : Nat} (lt : a < 131072) (h : 1 ∈ cs := by simp [faultCodes]) :
    RaisesOnly cs (memRead s a) := by
  rcases Nat.lt_or_ge a 4096 with inside | outside
  · exact raisesOnly_memRead_inside inside
  · exact memRead_outside s outside ▸ raisesOnly_addressOutOfBounds h outside lt

theorem raisesOnly_memWrite_inside {a v : Nat} (h : a < 4096) (hv : v ≤ 65535) : RaisesOnly cs (memWrite s a v) :=
  memWrite_inside s h hv ▸ .ok _

theorem raisesOnly_memWrite {a v : Nat} (lt : a < 131072) (hv : v ≤ 65535) (h : 1 ∈ cs := by simp [faultCodes]) :
    RaisesOnly cs (memWrite s a v) := by
  rcases Nat.lt_or_ge a 4096 with inside | outside
  · exact raisesOnly_memWrite_inside inside hv
  · exact memWrite_outside s v outside ▸ raisesOnly_addressOutOfBounds h outside lt

theorem raisesOnly_checkAddr {a : Nat} (lt : a < 131072) (h : 1 ∈ cs := by simp [faultCodes]) :
    RaisesOnly cs (checkAddr a) := by
  rcases Nat.lt_or_ge a 4096 with inside | outside
  · exact checkAddr_inside inside ▸ .ok ()
  · exact checkAddr_outside outside ▸ raisesOnly_addressOutOfBounds h outside lt

theorem raisesOnly_requireAc (h : 7 ∈ cs := by simp [faultCodes]) : RaisesOnly cs (requireAc s) := by
  cases ha : s.acv with
  | true => exact requireAc_valid ha ▸ .ok _
  | false => exact requireAc_unset ha ▸ raisesOnly_error h nofun

theorem raisesOnly_spDec {k : Nat} (h : 3 ∈ cs := by simp [faultCodes]) : RaisesOnly cs (spDec s k) := by
  rcases Nat.lt_or_ge s.sp.toNat (2048 + k) with low | ok
  · exact spDec_low low ▸ raisesOnly_error h nofun
  · exact spDec_ok ok ▸ .ok _

theorem raisesOnly_spInc {k : Nat} (h : 4096 < s.sp.toNat + k → 4 ∈ cs := by simp [faultCodes]) :
    RaisesOnly cs (spInc s k) := by
  rcases Nat.lt_or_ge 4096 (s.sp.toNat + k) with high | ok
  · exact spInc_high high ▸ raisesOnly_error (h high) nofun
  · exact spInc_ok ok ▸ .ok _

theorem raisesOnly_depthInc (h : 5 ∈ cs := by simp [faultCodes]) : RaisesOnly cs (depthInc s) := by
  rcases Nat.lt_or_ge s.depth.toNat 99 with lt | deep
  · exact depthInc_ok lt ▸ .ok _
  · exact depthInc_deep deep ▸ raisesOnly_error h nofun

theorem raisesOnly_depthDec (h : 4 ∈ cs := by simp [faultCodes]) : RaisesOnly cs (depthDec s) := by
  rcases Nat.eq_zero_or_pos s.depth.toNat with zero | pos
  · exact depthDec_zero zero ▸ raisesOnly_error h nofun
  · exact depthDec_ok pos ▸ .ok _

end

section
variable {cs : List (BitVec 4)} {arg : Operand12}

theorem frameAddr_lt : frameAddr s arg < 131072 := by
  unfold frameAddr
  omega

theorem word_toNat_lt (w : Word) : w.toNat < 131072 := Nat.lt_trans w.isLt (by decide)

theorem word_toNat_le (w : Word) : w.toNat ≤ 65535 := Nat.le_of_lt_succ w.isLt

/-- The body of ADDD, SUBD, ADDL and SUBL after its read. -/
theorem raisesOnly_combine {op : Word → Word} (h : 7 ∈ cs := by simp [faultCodes]) :
    RaisesOnly cs (requireAc s >>= fun c => pure (setAc s (op c))) :=
  (raisesOnly_requireAc h).bind fun _ _ => .ok _

theorem raisesOnly_jumpIf {test : Word → Bool} (h : 7 ∈ cs := by simp [faultCodes]) :
    RaisesOnly cs (jumpIf test arg s) :=
  (raisesOnly_requireAc h).bind fun _ _ => .ok _

end

/-- Every instruction ends a body that raises only the faults the table of 60_exceptions.md R212 gives it. NumberOverflow
is not among them: a CALL stores `pcb + 1`, which `InExecute` keeps to 16 bits. -/
theorem exec_body_raisesOnly (i : Instr) (hs : s.InExecute) :
    ∃ body, exec i s = finish s body ∧ RaisesOnly (faultCodes i) body := by
  cases i with
  | lodd arg => exact ⟨_, rfl, .bind (raisesOnly_memRead_inside arg.isLt) fun _ _ => .ok _⟩
  | lodl arg => exact ⟨_, rfl, .bind (raisesOnly_memRead frameAddr_lt) fun _ _ => .ok _⟩
  | addd arg | subd arg =>
    exact ⟨_, rfl, .bind (raisesOnly_memRead_inside arg.isLt) fun _ _ => raisesOnly_combine⟩
  | addl arg | subl arg =>
    exact ⟨_, rfl, .bind (raisesOnly_memRead frameAddr_lt) fun _ _ => raisesOnly_combine⟩
  | stod arg =>
    exact ⟨_, rfl, .bind raisesOnly_requireAc fun _ _ => raisesOnly_memWrite_inside arg.isLt (word_toNat_le _)⟩
  | stol arg =>
    exact ⟨_, rfl, .bind (raisesOnly_checkAddr frameAddr_lt) fun _ _ =>
      .bind raisesOnly_requireAc fun _ _ => raisesOnly_memWrite frameAddr_lt (word_toNat_le _)⟩
  | jpos arg | jzer arg | jneg arg | jnze arg => exact ⟨_, rfl, raisesOnly_jumpIf⟩
  | jump arg => exact ⟨.ok _, rfl, .ok _⟩
  | loco arg => exact ⟨.ok _, rfl, .ok _⟩
  | call arg =>
    have hv : s.pcb.toNat + 1 ≤ 65535 := by
      obtain ⟨-, -, hpcb, hpc⟩ := hs
      rw [memSize_eq] at hpc
      rw [hpcb]
      omega
    exact ⟨_, rfl, .bind raisesOnly_depthInc fun _ _ => .bind raisesOnly_spDec fun _ _ =>
      .bind (raisesOnly_memWrite (word_toNat_lt _) hv) fun _ _ => .ok _⟩
  | pshi arg =>
    exact ⟨_, rfl, .bind raisesOnly_spDec fun _ _ =>
      .bind (raisesOnly_memRead_inside (lowAddr_lt arg)) fun v _ =>
        raisesOnly_memWrite (word_toNat_lt _) (word_toNat_le v)⟩
  | popi arg =>
    refine ⟨_, rfl, .bind (raisesOnly_memRead (word_toNat_lt _)) fun v hv =>
      .bind (raisesOnly_memWrite_inside (lowAddr_lt arg) (word_toNat_le v)) fun t ht =>
        raisesOnly_spInc fun h => ?_⟩
    have hlt := memRead_ok_lt hv
    obtain ⟨-, rfl⟩ := memWrite_word_eq_ok.1 ht
    exact absurd h (Nat.not_lt.2 hlt)
  | push ignored =>
    exact ⟨_, rfl, .bind raisesOnly_spDec fun t _ =>
      .bind (raisesOnly_checkAddr (word_toNat_lt _)) fun _ _ =>
        .bind raisesOnly_requireAc fun v _ =>
          raisesOnly_memWrite (word_toNat_lt _) (word_toNat_le v)⟩
  | pop ignored =>
    exact ⟨_, rfl, .bind (raisesOnly_memRead (word_toNat_lt _)) fun v hv =>
      raisesOnly_spInc fun h => absurd h (Nat.not_lt.2 (memRead_ok_lt hv))⟩
  | retn ignored =>
    exact ⟨_, rfl, .bind raisesOnly_depthDec fun _ _ =>
      .bind (raisesOnly_memRead (word_toNat_lt _)) fun _ _ => raisesOnly_spInc⟩
  | swap ignored => exact ⟨_, rfl, .bind raisesOnly_requireAc fun _ _ => .ok _⟩
  | insp arg => exact ⟨_, rfl, raisesOnly_spInc⟩
  | desp arg => exact ⟨_, rfl, raisesOnly_spDec⟩

/-- Everything an instruction that takes a fault can have done. -/
theorem exec_faults (hs : s.InExecute) (h : exec i s = .next t) (ht : t.faulted = true) :
    ∃ f, t = faultEntry .execute f s ∧ f.code ∈ faultCodes i ∧ (f.code = 1 → 4096 ≤ f.addr.toNat) := by
  obtain ⟨body, hbody, hraises⟩ := exec_body_raisesOnly i hs
  rcases finish_next (hbody ▸ h) with ⟨u, -, rfl⟩ | ⟨f, hf, rfl⟩
  · obtain ⟨f, hfault⟩ := exec_faulted hs.1 h ht
    have hfsm : (advance u).fsm = .fault := congrArg State.fsm hfault
    rw [advance_fsm] at hfsm
    split at hfsm <;> cases hfsm
  · exact ⟨f, rfl, hraises f hf⟩

end Sys2Proof.Machine

/-! ### Steps -/

namespace Sys2Proof.Machine

variable {s t : State} {i : Instr}

/-- The state FETCH and DECODE leave to the body (40_step_cycle.md R120). -/
def fetched (s : State) (w : Word) : State := { s with pcb := s.pc, ir := w, fsm := .execute }

theorem inExecute_fetched {w : Word} (hs : s.Running) (hw : memRead s s.pc.toNat = .ok w) :
    (fetched s w).InExecute := ⟨hs.1, hs.2, rfl, memRead_ok_lt hw⟩

/-- Everything a step of a running machine that takes no fault can have done. -/
theorem step_completes (hs : s.Running) (h : step s = .next t) (hf : t.faulted = false) :
    ∃ w i u, memRead s s.pc.toNat = .ok w ∧ decode w = .ok i ∧ Completes (fetched s w) i u ∧ t = advance u := by
  rcases step_running hs with ⟨-, hstep⟩ | ⟨w, hw, ⟨e, -, hstep⟩ | ⟨i, hi, hstep⟩⟩
  · cases hstep ▸ h
    simp [fetchFault] at hf
  · cases hstep ▸ h
    cases e
    simp [decodeFault] at hf
  · obtain ⟨u, hu, rfl⟩ := exec_completes (hstep ▸ h) hf
    exact ⟨w, i, u, hw, hi, hu, rfl⟩

/-- A halted or faulted machine refuses the step (40_step_cycle.md R122, R127). -/
theorem step_refused (h : ¬ s.Running) : step s = .next s := by
  by_cases hf : s.faulted = true
  · exact step_faulted hf
  · exact step_ended (by simpa [hf] using h)

theorem target_eq_iff {a : Operand12} {w : Word} : target a = w ↔ a.toNat = w.toNat := by
  rw [← BitVec.toNat_inj, target, BitVec.toNat_setWidth_of_le (by decide)]

/-! ### The boundary invariant -/

theorem Fault.code_range (f : Fault) : 1 ≤ f.code.toNat ∧ f.code.toNat ≤ 7 := by
  cases f <;> simp [Fault.code]

theorem Fault.addr_of_code_ne_one {f : Fault} (h : f.code ≠ 1) : f.addr = 0 := by
  cases f with
  | addressOutOfBounds => exact absurd rfl h
  | _ => rfl

theorem two_not_mem_faultCodes (i : Instr) : 2 ∉ faultCodes i := by
  cases i <;> simp [faultCodes]

/-- Fault entry meets the boundary conditions when the fault is one the record can hold (60_exceptions.md R210). -/
theorem inv_faultEntry {p : Phase} {f : Fault} (hb : imageFits s.base = true) (h2 : f.code ≠ 2)
    (h1 : f.code = 1 → 4096 ≤ f.addr.toNat) (hp : p = .fetch → f = .addressOutOfBounds s.pcb.toNat) :
    (faultEntry p f s).Inv := by
  have hfetch : p = .fetch → f.code = 1 ∧ f.addr = s.pcb.setWidth 17 := by
    intro hfetch
    obtain rfl := hp hfetch
    exact ⟨rfl, BitVec.ofNat_toNat ..⟩
  exact ⟨faultEntry_overlay_wf p f s, hb, nofun,
    .inr ⟨rfl, f.code_range.1, f.code_range.2, h2, h1, Fault.addr_of_code_ne_one, hfetch⟩, rfl⟩

/-- An instruction that starts within the boundary conditions ends within them. -/
theorem exec_inv (hs : s.InExecute) (hw : s.overlay.wf) (hb : imageFits s.base = true) (hd : s.depth.toNat < 100)
    (hr : s.RecordClear) (h : exec i s = .next t) : t.Inv := by
  cases ht : t.faulted with
  | true =>
    obtain ⟨f, rfl, hcode, haddr⟩ := exec_faults hs h ht
    exact inv_faultEntry hb (fun h2 => two_not_mem_faultCodes i (h2 ▸ hcode)) haddr nofun
  | false =>
    obtain ⟨u, hu, rfl⟩ := exec_completes h ht
    have hrec : SameRecord s (advance u) := (exec_cases i h).resolve_left fun ⟨f, hf⟩ => by simp [hf] at ht
    refine ⟨hu.overlay_wf hw, hrec.base ▸ hb, fun _ => hu.depth_lt hd, .inl ?_, ?_⟩
    · rwa [State.RecordClear, hrec.faulted, hrec.faultCode, hrec.faultPhase, hrec.faultPc, hrec.faultAddr]
    · rw [boundaryFsm, ht, if_neg (by decide)]
      rfl

/-- A step of a running machine keeps the boundary conditions: its fetch or its decoding faults, or it runs the
instruction it fetched. -/
theorem step_inv_of_running (hs : s.Running) (hinv : s.Inv) (h : step s = .next t) : t.Inv := by
  obtain ⟨hoverlay, hbase, hdepth, hrecord, -⟩ := hinv
  have hclear : s.RecordClear := hrecord.resolve_right fun hl => absurd (hs.1.symm.trans hl.1) (by decide)
  rcases step_running hs with ⟨hpc, hstep⟩ | ⟨w, hw, ⟨e, -, hstep⟩ | ⟨i, -, hstep⟩⟩
  · cases hstep.symm.trans h
    refine inv_faultEntry hbase nofun (fun _ => ?_) fun _ => rfl
    simp only [Fault.addr, BitVec.toNat_ofNat]
    omega
  · cases hstep.symm.trans h
    cases e
    exact inv_faultEntry hbase nofun nofun nofun
  · exact exec_inv (inExecute_fetched hs hw) hoverlay hbase (hdepth hs.1) hclear (hstep.symm.trans h)

/-! ### The bits of an unset accumulator -/

/-- `s` with other bits in its accumulator. -/
def State.withAc (s : State) (x : Word) : State := { s with ac := x }

variable (x : Word)

/-- What follows RequireAc is not reached while `acv` = 0. -/
theorem requireAc_bind_unset {α : Type} {k k' : Word → Except Fault α} (hs : s.acv = false) (ht : t.acv = false)
    (hp : t.pcb = s.pcb) : (requireAc t >>= k') = (requireAc s >>= k) := by
  rw [requireAc_unset hs, requireAc_unset ht, hp, error_bind, error_bind]

theorem memWrite_withAc (a v : Nat) : memWrite (s.withAc x) a v = (memWrite s a v).map (·.withAc x) := by
  unfold memWrite
  split_ifs <;> rfl

theorem spDec_withAc (k : Nat) : spDec (s.withAc x) k = (spDec s k).map (·.withAc x) := by
  unfold spDec
  rw [apply_ite (Except.map _)]
  rfl

theorem spInc_withAc (k : Nat) : spInc (s.withAc x) k = (spInc s k).map (·.withAc x) := by
  unfold spInc
  rw [apply_ite (Except.map _)]
  rfl

theorem depthInc_withAc : depthInc (s.withAc x) = (depthInc s).map (·.withAc x) := by
  unfold depthInc
  rw [apply_ite (Except.map _)]
  rfl

theorem depthDec_withAc : depthDec (s.withAc x) = (depthDec s).map (·.withAc x) := by
  unfold depthDec
  rw [apply_ite (Except.map _)]
  rfl

/-- A sequence of two parts that carry the bits through carries them through. -/
theorem bind_withAc {m m' : Except Fault State} {k k' : State → Except Fault State}
    (hm : m' = m.map (·.withAc x)) (hk : ∀ u, k' (u.withAc x) = (k u).map (·.withAc x)) :
    (m' >>= k') = (m >>= k).map (·.withAc x) := by
  subst hm
  cases m with
  | error f => rfl
  | ok u => exact hk u

/-- A read does not see the bits. -/
theorem memRead_bind_withAc {a : Nat} {k k' : Word → Except Fault State}
    (hk : ∀ v, k' v = (k v).map (·.withAc x)) :
    (memRead (s.withAc x) a >>= k') = (memRead s a >>= k).map (·.withAc x) := by
  rw [memRead_congr (s := s) (t := s.withAc x) rfl rfl]
  cases memRead s a with
  | error f => rfl
  | ok v => exact hk v

/-- The body of an instruction that reads or writes `ac` does not depend on the bits of an unset one: it raises
UninitializedAccumulator (10_state.md R27) or overwrites them. -/
theorem exec_withAc_of_uses (hv : s.acv = false) (h : readsAc i = true ∨ writesAc i = true) :
    ∃ body, exec i s = finish s body ∧ exec i (s.withAc x) = finish (s.withAc x) body := by
  cases i with
  | lodd | lodl | pop => exact ⟨_, rfl, rfl⟩
  | loco => exact ⟨.ok _, rfl, rfl⟩
  | addd | subd | addl | subl | stol =>
    exact ⟨_, rfl, congrArg (finish _) <| bind_congr fun _ => requireAc_bind_unset hv hv rfl⟩
  | stod | jpos | jzer | jneg | jnze | swap =>
    exact ⟨_, rfl, congrArg (finish _) <| requireAc_bind_unset hv hv rfl⟩
  | push =>
    refine ⟨_, rfl, congrArg (finish _) ?_⟩
    rw [spDec_withAc]
    cases hdec : spDec s 1 with
    | error f => rfl
    | ok u =>
      have hu : u.acv = false := by
        obtain ⟨-, rfl⟩ := spDec_eq_ok.1 hdec
        exact hv
      exact bind_congr (x := checkAddr u.sp.toNat) fun _ =>
        requireAc_bind_unset (s := u) (t := u.withAc x) hu hu rfl
  | jump | call | pshi | popi | retn | insp | desp => simp [readsAc, writesAc] at h

/-- The body of an instruction that neither reads nor writes `ac` carries its bits through. -/
theorem exec_withAc_of_ignores (hr : readsAc i = false) (hw : writesAc i = false) :
    ∃ body, exec i s = finish s body ∧ exec i (s.withAc x) = finish (s.withAc x) (body.map (·.withAc x)) := by
  cases i with
  | jump arg =>
    refine ⟨.ok _, rfl, congrArg (finish _) (congrArg Except.ok ?_)⟩
    by_cases hself : target arg = s.pcb <;> simp [State.withAc, hself]
  | call arg =>
    exact ⟨_, rfl, congrArg (finish _) <| bind_withAc x (depthInc_withAc x) fun _ =>
      bind_withAc x (spDec_withAc x 1) fun _ => bind_withAc x (memWrite_withAc x _ _) fun _ => rfl⟩
  | pshi arg =>
    exact ⟨_, rfl, congrArg (finish _) <| bind_withAc x (spDec_withAc x 1) fun _ =>
      memRead_bind_withAc x fun _ => memWrite_withAc x _ _⟩
  | popi arg =>
    exact ⟨_, rfl, congrArg (finish _) <| memRead_bind_withAc x fun _ =>
      bind_withAc x (memWrite_withAc x _ _) fun _ => spInc_withAc x 1⟩
  | retn ignored =>
    exact ⟨_, rfl, congrArg (finish _) <| bind_withAc x (depthDec_withAc x) fun u =>
      memRead_bind_withAc x fun v => spInc_withAc (s := { u with pc := v }) x 1⟩
  | insp arg => exact ⟨_, rfl, congrArg (finish _) (spInc_withAc x _)⟩
  | desp arg => exact ⟨_, rfl, congrArg (finish _) (spDec_withAc x _)⟩
  | lodd | loco | lodl | pop | addd | subd | addl | subl | swap => cases hw
  | stod | stol | jpos | jzer | jneg | jnze | push => cases hr

end Sys2Proof.Machine

namespace Sys2Proof.Proofs

open Sys2Proof.Machine

/-- Settles O44: a refused step changes nothing, and a running one ends in fault entry or in an instruction's
completion. -/
theorem stepKeepsTheBoundaryConditions : Obligations.StepKeepsTheBoundaryConditions := by
  intro s t hinv h
  by_cases hs : s.Running
  · exact step_inv_of_running hs hinv h
  · cases (step_refused hs).symm.trans h
    exact hinv

/-- Settles O47, from what a completing body does to `ac` and `acv`. -/
theorem accumulatorValidBitFollowsItsWriters : Obligations.AccumulatorValidBitFollowsItsWriters := by
  refine ⟨applyReset_acv, fun i s t _ h hf => ?_⟩
  obtain ⟨u, hu, rfl⟩ := exec_completes h hf
  refine ⟨hu.acv_of_writesAc, hu.ac_of_not_writesAc, fun hv => ?_, hu.acv_of_readsAc⟩
  cases hw : writesAc i with
  | true => exact hu.acv_of_writesAc hw
  | false => exact (hu.ac_of_not_writesAc hw).2.trans hv

/-- Settles O48, by the three ways `depth` can go. -/
theorem onlyCallAndReturnMoveDepth : Obligations.OnlyCallAndReturnMoveDepth := by
  intro i s t _ hd h hf
  obtain ⟨u, hu, rfl⟩ := exec_completes h hf
  refine ⟨hu.depth_lt hd, ?_⟩
  obtain ⟨a, rfl, hlt, hdepth⟩ | ⟨x, rfl, hpos, hdepth⟩ | ⟨hcall, hretn, hdepth⟩ := hu.depth_cases
  · refine ⟨fun _ _ => ?_, nofun, fun hcall => absurd rfl (hcall a)⟩
    rw [advance_depth, hdepth, toNat_add_one_of_lt (by omega)]
  · refine ⟨nofun, fun _ _ => ?_, fun _ hretn => absurd rfl (hretn x)⟩
    rw [advance_depth, hdepth, toNat_sub_one hpos, Nat.sub_add_cancel hpos]
  · exact ⟨fun a ha => absurd ha (hcall a), fun x hx => absurd hx (hretn x), fun _ _ => hdepth⟩

/-- Settles O49: the word at `pc` decides which instruction completes, and only a self-jump sets the flag. -/
theorem onlyASelfJumpSetsTheHaltFlag : Obligations.OnlyASelfJumpSetsTheHaltFlag := by
  refine ⟨applyReset_ended, fun s t hs h hf => ?_, fun s hs => ⟨step_ended hs.2, ?_⟩⟩
  · obtain ⟨w, i, u, hw, hi, hu, rfl⟩ := step_completes hs h hf
    rw [advance_ended, hu.ended_iff]
    constructor
    · rintro (hended | ⟨a, rfl, htarget⟩)
      · exact absurd (hs.2.symm.trans hended) (by decide)
      · exact ⟨w, a, hw, hi, target_eq_iff.1 htarget⟩
    · rintro ⟨w', a, hw', ha, hself⟩
      cases hw.symm.trans hw'
      cases hi.symm.trans ha
      exact .inr ⟨a, rfl, target_eq_iff.2 hself⟩
  · rw [stepStatus, if_neg (by simp [hs.1]), if_pos hs.2]
    rfl

/-- Settles O53: an instruction that reads or writes `ac` has the same body whatever the unset bits are, and any other
carries them through untouched. -/
theorem unsetAccumulatorBitsAreNeverSeen : Obligations.UnsetAccumulatorBitsAreNeverSeen := by
  intro i s t u x _ hv h h'
  change exec i (s.withAc x) = .next u at h'
  by_cases huses : readsAc i = true ∨ writesAc i = true
  · have hacv : t.faulted = false → t.acv = true := fun hf => by
      obtain ⟨t', ht, rfl⟩ := exec_completes h hf
      exact huses.elim (fun hr => absurd (hv.symm.trans (ht.acv_of_readsAc hr)) (by decide)) ht.acv_of_writesAc
    obtain ⟨body, hbody, hbody'⟩ := exec_withAc_of_uses x hv huses
    rcases finish_next (hbody ▸ h) with ⟨t', rfl, rfl⟩ | ⟨f, rfl, rfl⟩
    · cases hbody'.symm.trans h'
      refine ⟨rfl, rfl, rfl, rfl, rfl, fun hf => ⟨fun _ => rfl, fun hfalse => ?_⟩⟩
      exact absurd (hfalse.symm.trans (hacv hf)) (by decide)
    · cases hbody'.symm.trans h'
      exact ⟨rfl, rfl, rfl, rfl, rfl, nofun⟩
  · rw [not_or, Bool.not_eq_true, Bool.not_eq_true] at huses
    obtain ⟨hr, hw⟩ := huses
    have hacv : t.faulted = false → t.acv = false := fun hf => by
      obtain ⟨t', ht, rfl⟩ := exec_completes h hf
      exact (ht.ac_of_not_writesAc hw).2.trans hv
    obtain ⟨body, hbody, hbody'⟩ := exec_withAc_of_ignores x hr hw
    rcases finish_next (hbody ▸ h) with ⟨t', rfl, rfl⟩ | ⟨f, rfl, rfl⟩
    · cases hbody'.symm.trans h'
      refine ⟨rfl, rfl, rfl, rfl, rfl, fun hf => ⟨fun htrue => ?_, fun _ => rfl⟩⟩
      exact absurd (htrue.symm.trans (hacv hf)) (by decide)
    · cases hbody'.symm.trans h'
      exact ⟨rfl, rfl, rfl, rfl, rfl, nofun⟩

/-- Settles O13. -/
theorem checkedMovesOfSpTestOneBound : Obligations.CheckedMovesOfSpTestOneBound :=
  fun _ _ _ => ⟨spDec_low, spDec_ok, spInc_high, spInc_ok⟩

end Sys2Proof.Proofs

namespace Sys2Proof.Machine

variable {s u : State} {i : Instr}

/-! ### Memory after a write, and after a completed instruction -/

theorem memRead_overlay {a : Nat} {v : Word} (ha : a < 4096) (h : s.overlay.lookup a = some v) :
    memRead s a = .ok v := by
  simp [memRead, Nat.not_le.2 ha, h]

theorem memRead_base {a : Nat} (ha : a < 4096) (h : s.overlay.lookup a = none) : memRead s a = .ok (baseWord s a) := by
  simp [memRead, Nat.not_le.2 ha, h]

/-- Writes inside memory to cells other than `a` all complete and leave what `a` reads (20_memory.md R57). -/
theorem memRead_after_other_writes {a : Nat} (others : List (Nat × Word)) (h : ∀ c ∈ others, c.1 < 4096 ∧ c.1 ≠ a)
    (s : State) :
    ∃ u, others.foldlM (fun r c => memWrite r c.1 c.2.toNat) s = .ok u ∧ memRead u a = memRead s a := by
  induction others generalizing s with
  | nil => exact ⟨s, rfl, rfl⟩
  | cons c rest ih =>
    obtain ⟨⟨hlt, hne⟩, hrest⟩ := List.forall_mem_cons.1 h
    obtain ⟨u, hu, hread⟩ := ih hrest { s with overlay := s.overlay.write c.1 c.2 }
    refine ⟨u, ?_, hread.trans (memRead_other rfl rfl hne.symm)⟩
    rw [List.foldlM_cons, memWrite_word s c.2 hlt, ok_bind, hu]

theorem Completes.base_eq (h : Completes s i u) : u.base = s.base := by
  cases h <;> rfl

/-- A completing body writes the cell `storeAddress` names, inside memory, or leaves the overlay alone
(20_memory.md R64). -/
theorem Completes.store_cases (h : Completes s i u) :
    (∃ a v, storeAddress s i = some a ∧ a < 4096 ∧ u.overlay = s.overlay.write a v) ∨
    (storeAddress s i = none ∧ u.overlay = s.overlay) := by
  cases h with
  | stod => exact .inl ⟨_, _, rfl, BitVec.isLt _, rfl⟩
  | popi => exact .inl ⟨_, _, rfl, lowAddr_lt _, rfl⟩
  | stol hlt | call _ _ hlt | pshi _ hlt | push _ hlt => exact .inl ⟨_, _, rfl, hlt, rfl⟩
  | _ => exact .inr ⟨rfl, rfl⟩

end Sys2Proof.Machine

namespace Sys2Proof.Proofs

open Sys2Proof.Machine

/-- Settles O12: the write puts `v` in the cell, and no write to another cell changes what it reads. -/
theorem readReturnsTheLastWrite : Obligations.ReadReturnsTheLastWrite := by
  refine ⟨fun s t a v others hw hothers => ?_, fun s a v ha => ⟨memRead_outside s ha, memWrite_outside s v ha⟩⟩
  obtain ⟨ha, ht⟩ := memWrite_word_eq_ok.1 hw
  have hwritten : memRead t a = .ok v := memRead_written ha (congrArg State.overlay ht)
  obtain ⟨u, hu, hread⟩ := memRead_after_other_writes others hothers t
  exact ⟨u, hu, hread.trans hwritten⟩

/-- Settles O51: a completing body writes its store cell or nothing, and ADVANCE leaves memory alone. -/
theorem instructionsWriteOnlyTheirOneCell : Obligations.InstructionsWriteOnlyTheirOneCell := by
  intro i s t _ h hf
  obtain ⟨u, hu, rfl⟩ := exec_completes h hf
  have hbase : (advance u).base = s.base := hu.base_eq
  obtain ⟨a, v, hstore, ha, hwrite⟩ | ⟨hstore, hsame⟩ := hu.store_cases
  · rw [hstore]
    refine ⟨fun b hb => memRead_other hbase hwrite fun hba => hb (congrArg some hba.symm), ?_⟩
    rintro _ ⟨⟩
    refine ⟨ha, v, memRead_written ha hwrite, ?_⟩
    rw [advance_overlay, hwrite, Memory.lookup_write_same]
  · rw [hstore]
    exact ⟨fun b _ => memRead_congr hsame hbase b, nofun⟩

/-- Settles O10. -/
theorem memReadConsultsOverlayThenBase : Obligations.MemReadConsultsOverlayThenBase :=
  fun s _ => ⟨memRead_outside s, fun _ => memRead_overlay, memRead_base⟩

/-- Settles O11: a completed write is the overlay's write, and a value check that failed would bound a word by its own
width. -/
theorem memWriteChecksAddressThenValue : Obligations.MemWriteChecksAddressThenValue := by
  refine ⟨fun s a v => ⟨memWrite_outside s v, memWrite_overflow s, fun ha hv => ?_⟩, fun s a v w h => ?_⟩
  · exact ⟨_, memWrite_inside s ha hv, rfl, Memory.lookup_write_same _ _ _,
      fun b hb => Memory.lookup_write_other _ _ hb⟩
  · obtain ⟨-, hfault⟩ | ⟨-, hover, -⟩ := memWrite_error h
    · cases hfault
    · exact absurd hover (Nat.not_lt.2 (word_toNat_le w))

end Sys2Proof.Proofs

/-! The decoder and the encoder as arithmetic on the word (30_encoding.md R84 to R95), and the statements read off it. -/

namespace Sys2Proof

/-! ### Fields of a word as arithmetic (30_encoding.md R84, R89) -/

/-- Masking with `n` ones at bit `k` keeps that field in place. -/
theorem and_field_mask (a k n : Nat) : a &&& (2 ^ n - 1) * 2 ^ k = a / 2 ^ k % 2 ^ n * 2 ^ k := by
  refine Nat.eq_of_testBit_eq fun i => ?_
  rcases Nat.lt_or_ge i k with lt | ge
  · simp [Nat.testBit_mul_two_pow, Nat.not_le.2 lt]
  · simp [Nat.testBit_mul_two_pow, Nat.testBit_div_two_pow, ge, Nat.sub_add_cancel ge, Bool.and_comm]

variable {w x : Word} {op : Byte}

theorem decStack_iff (w : Word) : decStack w = true ↔ w.toNat / 4096 = 15 := by
  simp only [decStack, beq_iff_eq, BitVec.toNat_eq, BitVec.extractLsb'_toNat, BitVec.toNat_ofNat,
    Nat.shiftRight_eq_div_pow]
  omega

/-- R84 on a stack-form word. -/
theorem decodePair_stack (h : w.toNat / 4096 = 15) :
    (decodePair w).1.toNat = w.toNat / 256 ∧ (decodePair w).2.toNat = w.toNat % 256 := by
  have hop : w.toNat &&& 0xFF00 = w.toNat / 256 % 256 * 256 := and_field_mask w.toNat 8 8
  have harg : w.toNat &&& 0x00FF = w.toNat % 256 := Nat.and_two_pow_sub_one_eq_mod w.toNat 8
  rw [decodePair, if_pos ((decStack_iff w).2 h)]
  simp only [BitVec.toNat_setWidth, BitVec.toNat_ushiftRight, BitVec.toNat_and, BitVec.reduceToNat, hop, harg,
    Nat.shiftRight_eq_div_pow]
  omega

/-- R84 on a standard-form word: the low nibble of the byte is 0. -/
theorem decodePair_standard (h : w.toNat / 4096 ≠ 15) :
    (decodePair w).1.toNat = 16 * (w.toNat / 4096) ∧ (decodePair w).2.toNat = w.toNat % 4096 := by
  have hop : w.toNat &&& 0xF000 = w.toNat / 4096 % 16 * 4096 := and_field_mask w.toNat 12 4
  have harg : w.toNat &&& 0x0FFF = w.toNat % 4096 := Nat.and_two_pow_sub_one_eq_mod w.toNat 12
  rw [decodePair, if_neg (mt (decStack_iff w).1 h)]
  simp only [BitVec.toNat_setWidth, BitVec.toNat_ushiftRight, BitVec.toNat_and, BitVec.reduceToNat, hop, harg,
    Nat.shiftRight_eq_div_pow]
  omega

theorem stackByte_iff (op : Byte) : (op.extractLsb' 4 4 == 0xF#4) = true ↔ op.toNat / 16 = 15 := by
  simp only [beq_iff_eq, BitVec.toNat_eq, BitVec.extractLsb'_toNat, BitVec.toNat_ofNat, Nat.shiftRight_eq_div_pow]
  omega

/-- R89 with a stack-form byte: the operand is cut to 8 bits. -/
theorem encodePair_stack (h : op.toNat / 16 = 15) :
    (encodePair op x).toNat = 256 * op.toNat + x.toNat % 256 := by
  have harg : x.toNat &&& 0x00FF = x.toNat % 2 ^ 8 := Nat.and_two_pow_sub_one_eq_mod x.toNat 8
  rw [encodePair, if_pos ((stackByte_iff op).2 h)]
  have hbyte : op.toNat % 2 ^ 16 * 2 ^ 8 % 2 ^ 16 = op.toNat * 2 ^ 8 := by omega
  simp only [BitVec.toNat_or, BitVec.toNat_shiftLeft, BitVec.toNat_setWidth, BitVec.toNat_and, BitVec.reduceToNat,
    harg, Nat.shiftLeft_eq, hbyte]
  rw [Nat.mul_comm _ (2 ^ 8), ← Nat.two_pow_add_eq_or_of_lt (Nat.mod_lt _ (Nat.two_pow_pos 8))]

/-- R89 with a standard-form byte: the low nibble of the byte is dropped and the operand ORed in whole. -/
theorem encodePair_standard (h : op.toNat / 16 ≠ 15) :
    (encodePair op x).toNat = (4096 * (op.toNat / 16)) ||| x.toNat := by
  have hop : op.toNat &&& 0xF0 = op.toNat / 16 % 16 * 16 := and_field_mask op.toNat 4 4
  rw [encodePair, if_neg (mt (stackByte_iff op).1 h)]
  simp only [BitVec.toNat_or, BitVec.toNat_shiftLeft, BitVec.toNat_setWidth, BitVec.toNat_and, BitVec.reduceToNat,
    hop, Nat.shiftLeft_eq]
  congr 1
  omega

theorem encodePair_standard_of_lt (h : op.toNat / 16 ≠ 15) (hx : x.toNat < 4096) :
    (encodePair op x).toNat = 4096 * (op.toNat / 16) + x.toNat := by
  rw [encodePair_standard h]
  exact (Nat.two_pow_add_eq_or_of_lt (i := 12) hx _).symm

/-! ### Round trips between words and pairs (30_encoding.md R91) -/

/-- A word that encodes a pair under a stack-form byte is stack-form, so it decodes by that form. -/
theorem decodePair_encodePair_stack (h : op.toNat / 16 = 15) :
    (decodePair (encodePair op x)).1 = op ∧ (decodePair (encodePair op x)).2.toNat = x.toNat % 256 := by
  have hword := encodePair_stack (x := x) h
  obtain ⟨hop, harg⟩ := decodePair_stack (w := encodePair op x) (by omega)
  exact ⟨BitVec.eq_of_toNat_eq (by omega), by omega⟩

/-- An operand that fits leaves the top nibble alone, so the word decodes by the byte's form. -/
theorem decodePair_encodePair_standard (h : op.toNat / 16 ≠ 15) (hx : x.toNat < 4096) :
    (decodePair (encodePair op x)).1.toNat = 16 * (op.toNat / 16) ∧
      (decodePair (encodePair op x)).2.toNat = x.toNat := by
  have hword := encodePair_standard_of_lt h hx
  obtain ⟨hop, harg⟩ := decodePair_standard (w := encodePair op x) (by omega)
  exact ⟨by omega, by omega⟩

theorem validPair_iff : validPair op x = true ↔
    (op.toNat / 16 = 15 ∧ x.toNat < 256) ∨ (op.toNat / 16 ≠ 15 ∧ op.toNat % 16 = 0 ∧ x.toNat < 4096) := by
  by_cases h : op.toNat / 16 = 15 <;> simp [validPair, h]

/-- R91: the round trip is exact on exactly the valid pairs. -/
theorem decodePair_encodePair_iff :
    ((decodePair (encodePair op x)).1 = op ∧ (decodePair (encodePair op x)).2.toNat = x.toNat) ↔
      validPair op x = true := by
  rw [validPair_iff]
  by_cases h : op.toNat / 16 = 15
  · obtain ⟨hop, harg⟩ := decodePair_encodePair_stack (x := x) h
    rw [hop, harg]
    simp [h]
  · constructor
    · rintro ⟨hop, harg⟩
      have hx : x.toNat < 4096 := harg ▸ (decodePair (encodePair op x)).2.isLt
      have hbyte := (decodePair_encodePair_standard h hx).1
      rw [hop] at hbyte
      exact .inr ⟨h, by omega, hx⟩
    · rintro (⟨hstack, -⟩ | ⟨-, hlow, hx⟩)
      · exact absurd hstack h
      · obtain ⟨hop, harg⟩ := decodePair_encodePair_standard h hx
        exact ⟨BitVec.eq_of_toNat_eq (by omega), harg⟩

theorem decodePair_encodePair (h : validPair op x = true) : decodePair (encodePair op x) = (op, x.setWidth 12) := by
  obtain ⟨hop, harg⟩ := decodePair_encodePair_iff.2 h
  refine Prod.ext hop (BitVec.eq_of_toNat_eq ?_)
  rw [BitVec.toNat_setWidth, ← harg, Nat.mod_eq_of_lt (BitVec.isLt _)]

/-- The decoder drops no bit of a word. -/
theorem encodePair_decodePair (w : Word) : encodePair (decodePair w).1 ((decodePair w).2.setWidth 16) = w := by
  refine BitVec.eq_of_toNat_eq ?_
  by_cases h : w.toNat / 4096 = 15
  · obtain ⟨hop, harg⟩ := decodePair_stack h
    rw [encodePair_stack (by omega), BitVec.toNat_setWidth]
    omega
  · obtain ⟨hop, harg⟩ := decodePair_standard h
    rw [encodePair_standard_of_lt (by omega) (by rw [BitVec.toNat_setWidth]; omega), BitVec.toNat_setWidth]
    omega

/-! ### Instructions and their bytes (30_encoding.md R85, R86, R95) -/

theorem validPair_opcodeByte_operand (i : Instr) : validPair i.opcodeByte i.operand = true := by
  cases i with
  | lodd a | stod a | addd a | subd a | jpos a | jzer a | jump a | loco a | lodl a | stol a | addl a | subl a | jneg a
  | jnze a | call a => exact Laws.validPair_standard a (by simp [Instr.opcodeByte]) (by simp [Instr.opcodeByte])
  | pshi b | popi b | push b | pop b | retn b | swap b | insp b | desp b =>
    exact Laws.validPair_stack b (by simp [Instr.opcodeByte])

theorem instrOf_opcodeByte (i : Instr) : instrOf i.opcodeByte (i.operand.setWidth 12) = .ok i := by
  cases i <;> simp [instrOf, Instr.opcodeByte, Instr.operand]

/-- What a byte of the table names is the instruction with that byte and the operand, cut to 8 bits in stack form. -/
theorem instrOf_eq_ok {arg : Operand12} {i : Instr} (h : instrOf op arg = .ok i) :
    i.opcodeByte = op ∧
      i.operand = if op.toNat / 16 = 15 then (arg.setWidth 8).setWidth 16 else arg.setWidth 16 := by
  unfold instrOf at h
  split at h <;> cases h <;> exact ⟨rfl, rfl⟩

/-- A byte of R85's table: a standard-form byte with low nibble 0, or an even stack-form byte. -/
abbrev InTable (op : Byte) : Prop := if op.toNat / 16 = 15 then op.toNat % 2 = 0 else op.toNat % 16 = 0

/-- R86: the bytes that name an operation are those of the table. The operand plays no part, and the bytes are
finitely many. -/
theorem instrOf_isOk_iff {arg : Operand12} : (instrOf op arg).isOk = true ↔ InTable op := by
  have hbytes : ∀ op : Byte, (instrOf op 0).isOk = true ↔ InTable op := by decide
  have harg : (instrOf op arg).isOk = (instrOf op 0).isOk := by unfold instrOf; split <;> rfl
  rw [harg, hbytes]

theorem instrOf_eq_error {arg : Operand12} {e : DecodeError} (h : instrOf op arg = .error e) :
    e = .undefinedOperation op := by
  unfold instrOf at h
  split at h <;> cases h
  rfl

/-- The table index counts the standard-form bytes by their top nibble and the stack-form bytes on from 15. -/
theorem toNat_index (i : Instr) : i.index.toNat =
    if i.opcodeByte.toNat / 16 = 15 then 15 + i.opcodeByte.toNat / 2 % 8 else i.opcodeByte.toNat / 16 := by
  cases i <;> simp [Instr.index, Instr.opcodeByte]

/-! ### Decoding a word (30_encoding.md R84 to R87, R95) -/

theorem decode_encode (i : Instr) : decode (encode i) = .ok i := by
  rw [decode, encode, decodePair_encodePair (validPair_opcodeByte_operand i), instrOf_opcodeByte]

/-- A stack-form operand is below 256, so the instruction keeps the operand whole in both forms. -/
theorem decode_eq_ok {i : Instr} (h : decode w = .ok i) :
    i.opcodeByte = (decodePair w).1 ∧ i.operand = (decodePair w).2.setWidth 16 := by
  obtain ⟨hbyte, hoperand⟩ := instrOf_eq_ok h
  refine ⟨hbyte, ?_⟩
  rw [hoperand]
  split
  next hstack =>
    have hform : w.toNat / 4096 = 15 := by
      by_contra hform
      have := (decodePair_standard hform).1
      omega
    have harg := (decodePair_stack hform).2
    refine BitVec.eq_of_toNat_eq ?_
    simp only [BitVec.toNat_setWidth]
    omega
  next => rfl

theorem encode_of_decode {i : Instr} (h : decode w = .ok i) : encode i = w := by
  obtain ⟨hbyte, hoperand⟩ := decode_eq_ok h
  rw [encode, hbyte, hoperand, encodePair_decodePair]

theorem inTable_decodePair_iff : InTable (decodePair w).1 ↔ ¬ (w.toNat / 4096 = 15 ∧ w.toNat / 256 % 2 = 1) := by
  by_cases h : w.toNat / 4096 = 15
  · rw [InTable, (decodePair_stack h).1, if_pos (by omega)]
    omega
  · rw [InTable, (decodePair_standard h).1, if_neg (by omega)]
    omega

theorem decode_isOk_iff : (decode w).isOk = true ↔ ¬ (w.toNat / 4096 = 15 ∧ w.toNat / 256 % 2 = 1) :=
  instrOf_isOk_iff.trans inTable_decodePair_iff

theorem decode_error_iff : (∃ e, decode w = .error e) ↔ (w.toNat / 4096 = 15 ∧ w.toNat / 256 % 2 = 1) := by
  rw [← not_iff_not, ← decode_isOk_iff]
  cases decode w <;> simp [Except.isOk, Except.toBool]

/-- R95: the rejection names the opcode byte, which is the word's high byte, as only a stack-form word is rejected. -/
theorem decode_eq_error {e : DecodeError} (h : decode w = .error e) :
    ∃ op, e = .undefinedOperation op ∧ op.toNat = w.toNat / 256 :=
  ⟨_, instrOf_eq_error h, (decodePair_stack (decode_error_iff.1 ⟨e, h⟩).1).1⟩

theorem decStack_eq_false_iff : decStack w = false ↔ w.toNat / 4096 ≠ 15 := by
  rw [← Bool.not_eq_true, decStack_iff]

theorem decKnown_iff : decKnown w = true ↔ (decStack w = false ∨ w.toNat / 256 % 2 = 0) := by
  simp [decKnown, BitVec.getLsbD, Nat.testBit_eq_decide_div_mod_eq]

theorem decIndex_standard (h : decStack w = false) : (decIndex w).toNat = w.toNat / 4096 := by
  rw [decIndex, if_pos (decKnown_iff.2 (.inl h)), if_neg (by simp [h])]
  simp only [BitVec.toNat_setWidth, BitVec.extractLsb'_toNat, Nat.shiftRight_eq_div_pow]
  omega

theorem decIndex_stack (h : decStack w = true) (hk : decKnown w = true) :
    (decIndex w).toNat = 15 + w.toNat / 512 % 8 := by
  rw [decIndex, if_pos hk, if_pos h]
  simp only [BitVec.toNat_add, BitVec.reduceToNat, BitVec.toNat_setWidth, BitVec.extractLsb'_toNat,
    Nat.shiftRight_eq_div_pow]
  omega

theorem decIndex_unknown (h : decKnown w = false) : decIndex w = 0 := by
  simp [decIndex, h]

theorem decKnown_of_decode {i : Instr} (h : decode w = .ok i) : decKnown w = true := by
  rw [decKnown_iff, decStack_eq_false_iff]
  have := decode_isOk_iff.1 (h ▸ rfl : (decode w).isOk = true)
  omega

/-- The instruction's byte fixes its table index, and the decoder reads the same row off the word. -/
theorem decIndex_of_decode {i : Instr} (h : decode w = .ok i) : decIndex w = i.index := by
  refine BitVec.eq_of_toNat_eq ?_
  rw [toNat_index, (decode_eq_ok h).1]
  by_cases hs : w.toNat / 4096 = 15
  · rw [decIndex_stack ((decStack_iff w).2 hs) (decKnown_of_decode h), (decodePair_stack hs).1, if_pos (by omega)]
    omega
  · rw [decIndex_standard (decStack_eq_false_iff.2 hs), (decodePair_standard hs).1, if_neg (by omega)]
    omega

end Sys2Proof

namespace Sys2Proof.Machine

/-- R124: a running machine that fetches a rejected word takes the fault of DECODE. -/
theorem step_of_decode_error {s : State} {w : Word} {e : DecodeError} (hs : s.Running)
    (hw : memRead s s.pc.toNat = .ok w) (he : decode w = .error e) :
    step s = .next (decodeFault e { s with pcb := s.pc, ir := w, fsm := .decode }) := by
  simp [step, hs.1, hs.2, fetch_ok hw, he]

/-- The status of a step that takes a fault is the code it latches. -/
theorem stepStatus_of_takesFault {s : State} {code : BitVec 4} {addr : Nat} (hs : s.Running)
    (h : TakesFault s (step s) code addr) : stepStatus s = code := by
  obtain ⟨t, hstep, hfaulted, hcode, -⟩ := h
  simp [stepStatus, hs.1, hs.2, hstep, hfaulted, hcode]

end Sys2Proof.Machine

namespace Sys2Proof.Proofs

open Sys2Proof.Machine

/-- Settles O4: every instruction presents a valid pair to the encoder, so the decoder gets its byte and operand back. -/
theorem decodeOfEncodeIsTheInstruction : Obligations.DecodeOfEncodeIsTheInstruction := decode_encode

/-- Settles O5. -/
theorem encodeOfDecodeIsTheWord : Obligations.EncodeOfDecodeIsTheWord := fun _ _ => encode_of_decode

/-- Settles O1. -/
theorem decoderSplitsEveryWordByItsForm : Obligations.DecoderSplitsEveryWordByItsForm :=
  fun _ => ⟨decodePair_stack, decodePair_standard⟩

/-- Settles O2. -/
theorem encoderPlacesOpcodeAndOperand : Obligations.EncoderPlacesOpcodeAndOperand :=
  fun _ _ => ⟨encodePair_stack, encodePair_standard⟩

/-- Settles O3: the pair (0x00, 4096) is one that does not come back. -/
theorem decodeInvertsEncodeExactlyOnValidPairs : Obligations.DecodeInvertsEncodeExactlyOnValidPairs :=
  ⟨fun _ _ => decodePair_encodePair_iff, fun _ _ => decodePair_encodePair_stack, 0x00, 4096, by decide⟩

/-- Settles O6: the word is rejected by DECODE, and the step's status is the code of the fault taken there. -/
theorem onlyOddStackFormWordsAreUndefined : Obligations.OnlyOddStackFormWordsAreUndefined := by
  refine fun w => ⟨decode_error_iff, fun op h => ?_, fun s hs hw hform hodd => ?_⟩
  · obtain ⟨_, ⟨⟩, hop⟩ := decode_eq_error h
    exact hop
  · obtain ⟨e, he⟩ := decode_error_iff.2 ⟨hform, hodd⟩
    obtain ⟨op, rfl, -⟩ := decode_eq_error he
    have hfault : TakesFault s (step s) 6 0 :=
      ⟨_, step_of_decode_error hs hw he, rfl, rfl, rfl, rfl, rfl, rfl, rfl⟩
    exact ⟨hfault, stepStatus_of_takesFault hs hfault⟩

/-- Settles O7. -/
theorem decoderPortsNameTheTableRow : Obligations.DecoderPortsNameTheTableRow := by
  refine fun w => ⟨decStack_iff w, rfl, rfl, fun h => ?_, decKnown_iff, decIndex_standard, decIndex_stack,
    decIndex_unknown, fun i h => ⟨decKnown_of_decode h, decIndex_of_decode h⟩⟩
  rw [decArg, (decodePair_stack ((decStack_iff w).1 h)).2]
  exact Nat.mod_lt _ (by decide)

/-- Settles O60: the provisional operand 0 makes a valid pair, so decoding recovers the byte, and the patched word is
the byte encoded with the address. -/
theorem patchingKeepsTheOpcode : Obligations.PatchingKeepsTheOpcode := by
  intro op addr haddr htable
  have hvalid : validPair op 0 = true := validPair_iff.2 (by simp; omega)
  have htoNat : (BitVec.ofNat 16 addr).toNat = addr := Nat.mod_eq_of_lt (by omega)
  rw [Assembler.patchWord, decodePair_encodePair hvalid]
  by_cases h : op.toNat / 16 = 15
  · simpa [h, htoNat] using decodePair_encodePair_stack (x := BitVec.ofNat 16 addr) h
  · have hpair : validPair op (BitVec.ofNat 16 addr) = true := validPair_iff.2 (by omega)
    rw [if_neg h, ← htoNat]
    simpa [htoNat] using decodePair_encodePair_iff.2 hpair

/-- Settles O8. -/
theorem tableWordsDecodeToTheirOperations : Obligations.TableWordsDecodeToTheirOperations := by
  unfold Obligations.TableWordsDecodeToTheirOperations
  decide

/-- Settles O9: with byte 0 the operand is the word, and the other words are computed. -/
theorem wideStandardOperandsReachTheOpcode : Obligations.WideStandardOperandsReachTheOpcode := by
  refine ⟨fun v => BitVec.eq_of_toNat_eq ?_, by decide⟩
  rw [encodePair_standard (by decide)]
  exact Nat.zero_or _

end Sys2Proof.Proofs

/-! The assembler (30_encoding.md R100 to R109): what pass 1 keeps, and that comments do not reach the words. -/

namespace Sys2Proof.Assembler

variable {p q : Partial} {line : Nat} {text : Text}

/-! ### What the parts of the assembler can do (30_encoding.md R100 to R109) -/

/-- A label taken up is new, and waits for the next instruction line. -/
theorem addLabel_eq_ok {label : Option Text} (h : addLabel p label = .ok q) :
    q = p ∨ ∃ name, name ∉ p.symbols.map Prod.fst ++ p.pending ∧
      q = { p with pending := p.pending ++ [name] } := by
  cases label with
  | none => exact .inl (Except.ok.inj h).symm
  | some name =>
    rw [addLabel] at h
    split at h
    next => cases h
    next hnew => exact .inr ⟨name, by simpa using hnew, (Except.ok.inj h).symm⟩

/-- An instruction line appends one word, which binds the pending labels to its address. -/
theorem addInstruction_eq_ok {m : Text} {operand : Option Text} (h : addInstruction p line text m operand = .ok q) :
    p.words.length < 4096 ∧
      ∃ w queue, q = { bindPending p with words := p.words ++ [w], queue := queue } := by
  unfold addInstruction at h
  split at h
  next => cases h
  next op _ =>
    split at h
    next => cases h
    next ref _ =>
      split at h
      next => cases h
      next hroom =>
        refine ⟨Nat.not_le.1 hroom, ?_⟩
        cases ref with
        | immediate v => exact ⟨_, _, (Except.ok.inj h).symm⟩
        | label name => exact ⟨_, _, (Except.ok.inj h).symm⟩

theorem addLine_eq_ok {l : Line} (h : addLine p line text l = .ok q) :
    ∃ r, addLabel p l.label = .ok r ∧
      (q = r ∨ ∃ m operand, addInstruction r line text m operand = .ok q) := by
  unfold addLine at h
  split at h
  next => cases h
  next r hr =>
    refine ⟨r, hr, ?_⟩
    split at h
    next => exact .inl (Except.ok.inj h).symm
    next m operand _ => exact .inr ⟨m, operand, h⟩

theorem addDirective_eq (p : Partial) (line : Nat) (comment : Text) :
    ∃ ds, addDirective p line comment = { p with directives := ds } := by
  unfold addDirective
  split <;> exact ⟨_, rfl⟩

theorem passOneLine_eq_ok_iff : passOneLine p line text = .ok q ↔
    ∃ l r, parseTokens (tokens (splitComment false text).1) = .ok l ∧ addLine p line text l = .ok r ∧
      q = addDirective r line (splitComment false text).2 := by
  cases hl : parseTokens (tokens (splitComment false text).1) with
  | error => simp [passOneLine, hl]
  | ok l => cases hr : addLine p line text l <;> simp [passOneLine, hl, hr, eq_comm]

theorem passOne_cons_eq_ok_iff {rest : List Text} : passOne p line (text :: rest) = .ok q ↔
    ∃ r, passOneLine p line text = .ok r ∧ passOne r (line + 1) rest = .ok q := by
  cases h : passOneLine p line text <;> simp [passOne, h]

theorem passTwo_cons_eq_ok_iff {symbols : List (Text × Nat)} {words ws : List Word} {r : Queued} {rest : List Queued} :
    passTwo symbols words (r :: rest) = .ok ws ↔
      ∃ a, symbols.lookup r.name = some a ∧
        passTwo symbols (words.modify r.addr fun w => patchWord w a) rest = .ok ws := by
  cases h : symbols.lookup r.name <;> simp [passTwo, h]

theorem assemble_eq_ok_iff {source : List Text} {program : Program} : assemble source = .ok program ↔
    ∃ p ws, passOne Partial.empty 1 source = .ok p ∧ passTwo p.symbols p.words p.queue = .ok ws ∧
      program = { words := ws, symbols := p.symbols, directives := p.directives } := by
  unfold assemble
  cases passOne Partial.empty 1 source with
  | error => simp
  | ok p => cases h : passTwo p.symbols p.words p.queue <;> simp [h, eq_comm]

/-! ### Addresses and labels (30_encoding.md R104, R107, R108) -/

/-- What pass 1 keeps: the words fit memory, every bound label names one of them, and no name, bound or pending, stands
twice. -/
structure Partial.Wf (p : Partial) : Prop where
  fits : p.words.length ≤ 4096
  bound : ∀ b ∈ p.symbols, b.2 < p.words.length
  unique : (p.symbols.map Prod.fst ++ p.pending).Nodup

theorem Partial.wf_empty : Partial.empty.Wf := ⟨Nat.zero_le _, nofun, List.nodup_nil⟩

theorem addLabel_wf {label : Option Text} (hp : p.Wf) (h : addLabel p label = .ok q) : q.Wf := by
  obtain rfl | ⟨name, hnew, rfl⟩ := addLabel_eq_ok h
  · exact hp
  · refine ⟨hp.fits, hp.bound, ?_⟩
    rw [← List.append_assoc, ← List.concat_eq_append]
    exact hp.unique.concat hnew

/-- The pending labels are bound to the address of the word the same line appends. -/
theorem addInstruction_wf {m : Text} {operand : Option Text} (hp : p.Wf)
    (h : addInstruction p line text m operand = .ok q) : q.Wf := by
  obtain ⟨hroom, w, queue, rfl⟩ := addInstruction_eq_ok h
  refine ⟨by simpa using hroom, fun b hb => ?_, ?_⟩
  · rw [List.length_append, List.length_singleton, Nat.lt_succ_iff]
    obtain hold | hnew := List.mem_append.1 hb
    · exact Nat.le_of_lt (hp.bound b hold)
    · obtain ⟨name, -, rfl⟩ := List.mem_map.1 hnew
      exact Nat.le_refl _
  · simpa [bindPending, Function.comp_def] using hp.unique

theorem passOneLine_wf (hp : p.Wf) (h : passOneLine p line text = .ok q) : q.Wf := by
  obtain ⟨l, r, -, hline, rfl⟩ := passOneLine_eq_ok_iff.1 h
  obtain ⟨s, hlabel, hrest⟩ := addLine_eq_ok hline
  have hs := addLabel_wf hp hlabel
  have hr : r.Wf := by
    obtain rfl | ⟨m, operand, hinstr⟩ := hrest
    · exact hs
    · exact addInstruction_wf hs hinstr
  obtain ⟨ds, hds⟩ := addDirective_eq r line (splitComment false text).2
  rw [hds]
  exact ⟨hr.fits, hr.bound, hr.unique⟩

theorem passOne_wf {source : List Text} (hp : p.Wf) (h : passOne p line source = .ok q) : q.Wf := by
  induction source generalizing p line with
  | nil => exact Except.ok.inj h ▸ hp
  | cons text rest ih =>
    obtain ⟨r, hr, hrest⟩ := passOne_cons_eq_ok_iff.1 h
    exact ih (passOneLine_wf hp hr) hrest

theorem passTwo_length {symbols : List (Text × Nat)} {words ws : List Word} {queue : List Queued}
    (h : passTwo symbols words queue = .ok ws) : ws.length = words.length := by
  induction queue generalizing words with
  | nil => exact congrArg List.length (Except.ok.inj h).symm
  | cons r rest ih =>
    obtain ⟨a, -, hrest⟩ := passTwo_cons_eq_ok_iff.1 h
    exact (ih hrest).trans (List.length_modify ..)

/-! ### Comments (30_encoding.md R101, R102) -/

/-- A line without its comment. -/
def code (text : Text) : Text := (splitComment false text).1

/-- Code holds no comment of its own. -/
theorem splitComment_code (prev : Bool) (text : Text) :
    splitComment prev (splitComment prev text).1 = ((splitComment prev text).1, []) := by
  induction text generalizing prev with
  | nil => rfl
  | cons c rest ih =>
    by_cases hc : c = ';' ∧ prev = false
    · simp [splitComment, hc]
    · simp [splitComment, hc, ih]

/-- A queued reference without the text of its line, which only a failure reports. -/
def Queued.erase (r : Queued) : Queued := { r with text := [] }

/-- What pass 1 has built, without the texts and the directives. -/
def Partial.erase (p : Partial) : Partial := { p with queue := p.queue.map Queued.erase, directives := [] }

theorem addLabel_erase (p : Partial) (label : Option Text) :
    addLabel p.erase label = (addLabel p label).map Partial.erase := by
  cases label with
  | none => rfl
  | some name =>
    by_cases h : (p.symbols.map Prod.fst ++ p.pending).contains name = true
    · rw [addLabel, addLabel, if_pos h]
      exact if_pos h
    · rw [addLabel, addLabel, if_neg h]
      exact if_neg h

theorem addInstruction_erase (p : Partial) (line : Nat) (text m : Text) (operand : Option Text) :
    addInstruction p.erase line [] m operand = (addInstruction p line text m operand).map Partial.erase := by
  unfold addInstruction
  cases lookupMnemonic m with
  | none => rfl
  | some op =>
    cases readOperand operand with
    | error => rfl
    | ok ref =>
      by_cases h : 4096 ≤ p.words.length
      · simp [h, Partial.erase, Except.map]
      · cases ref <;> simp [h, Partial.erase, Queued.erase, bindPending, Except.map]

theorem addLine_erase (p : Partial) (line : Nat) (text : Text) (l : Line) :
    addLine p.erase line [] l = (addLine p line text l).map Partial.erase := by
  unfold addLine
  rw [addLabel_erase]
  cases addLabel p l.label with
  | error => rfl
  | ok q =>
    cases l.op with
    | none => rfl
    | some op => exact addInstruction_erase q line text op.1 op.2

theorem erase_addDirective (p : Partial) (line : Nat) (comment : Text) :
    (addDirective p line comment).erase = p.erase := by
  obtain ⟨ds, hds⟩ := addDirective_eq p line comment
  rw [hds]
  rfl

/-- Pass 1 on a line depends on what is built so far and on the parsed tokens, and not on any text. -/
theorem addLine_of_erase_eq {p' : Partial} {text' : Text} {l : Line} (hp : p'.erase = p.erase)
    (h : addLine p line text l = .ok q) : ∃ q', addLine p' line text' l = .ok q' ∧ q'.erase = q.erase := by
  have hmap : (addLine p' line text' l).map Partial.erase = .ok q.erase := by
    rw [← addLine_erase, hp, addLine_erase p line text, h]
    rfl
  cases hq : addLine p' line text' l with
  | error => simp [hq, Except.map] at hmap
  | ok q' => exact ⟨q', rfl, by simpa [hq, Except.map] using hmap⟩

theorem passOneLine_code {p' : Partial} (hp : p'.erase = p.erase) (h : passOneLine p line text = .ok q) :
    ∃ q', passOneLine p' line (code text) = .ok q' ∧ q'.erase = q.erase := by
  obtain ⟨l, r, hparse, hline, rfl⟩ := passOneLine_eq_ok_iff.1 h
  obtain ⟨r', hline', hr⟩ := addLine_of_erase_eq hp hline
  refine ⟨_, passOneLine_eq_ok_iff.2 ⟨l, r', ?_, hline', rfl⟩, ?_⟩
  · rw [code, splitComment_code, hparse]
  · rw [erase_addDirective, erase_addDirective, hr]

theorem passOne_code {p' : Partial} {source : List Text} (hp : p'.erase = p.erase)
    (h : passOne p line source = .ok q) :
    ∃ q', passOne p' line (source.map code) = .ok q' ∧ q'.erase = q.erase := by
  induction source generalizing p p' line with
  | nil => exact ⟨p', rfl, Except.ok.inj h ▸ hp⟩
  | cons text rest ih =>
    obtain ⟨r, hr, hrest⟩ := passOne_cons_eq_ok_iff.1 h
    obtain ⟨r', hr', herase⟩ := passOneLine_code hp hr
    obtain ⟨q', hq', hq⟩ := ih herase hrest
    exact ⟨q', passOne_cons_eq_ok_iff.2 ⟨r', hr', hq'⟩, hq⟩

/-- Pass 2 completes the same way whatever the texts in its queue. -/
theorem passTwo_erase_iff {symbols : List (Text × Nat)} {words ws : List Word} {queue : List Queued} :
    passTwo symbols words (queue.map Queued.erase) = .ok ws ↔ passTwo symbols words queue = .ok ws := by
  induction queue generalizing words with
  | nil => rfl
  | cons r rest ih => simp only [List.map_cons, passTwo_cons_eq_ok_iff, ih, Queued.erase]

end Sys2Proof.Assembler

namespace Sys2Proof.Proofs

open Sys2Proof.Assembler

/-- Settles O58: pass 1 keeps `Partial.Wf`, and pass 2 keeps the number of words. -/
theorem assembledLabelsAreUniqueProgramAddresses : Obligations.AssembledLabelsAreUniqueProgramAddresses := by
  intro source program h
  obtain ⟨p, ws, hone, htwo, rfl⟩ := assemble_eq_ok_iff.1 h
  have hp := passOne_wf Partial.wf_empty hone
  have hlen := passTwo_length htwo
  exact ⟨decide_eq_true (hlen ▸ hp.fits), fun b hb => hlen ▸ hp.bound b hb, hp.unique.of_append_left⟩

/-- Settles O59: both sources take pass 1 to the same words, symbols and references. They differ in the
texts kept for failures and in the directives, which pass 2 does not read. -/
theorem commentsDoNotReachTheWords : Obligations.CommentsDoNotReachTheWords := by
  intro source program h
  obtain ⟨p, ws, hone, htwo, rfl⟩ := assemble_eq_ok_iff.1 h
  obtain ⟨p', hone', herase⟩ := passOne_code rfl hone
  have hwords : p'.words = p.words := (congrArg Partial.words herase :)
  have hsymbols : p'.symbols = p.symbols := (congrArg Partial.symbols herase :)
  have hqueue : p'.queue.map Queued.erase = p.queue.map Queued.erase := (congrArg Partial.queue herase :)
  have htwo' : passTwo p'.symbols p'.words p'.queue = .ok ws := by
    rw [← passTwo_erase_iff, hqueue, hwords, hsymbols, passTwo_erase_iff]
    exact htwo
  exact ⟨_, assemble_eq_ok_iff.2 ⟨p', ws, hone', htwo', rfl⟩, rfl, hsymbols⟩

end Sys2Proof.Proofs

/-! The step cycle (40_step_cycle.md): how a request is answered, where a step leaves `pc`, and how a bounded run ends. -/

namespace Sys2Proof.Machine

variable {s t u : State} {i : Instr}

/-! ### How a step request is answered (40_step_cycle.md R121 to R127) -/

theorem step_of_decode_ok {w : Word} (hs : s.Running) (hw : memRead s s.pc.toNat = .ok w) (hi : decode w = .ok i) :
    step s = exec i (fetched s w) := by
  simp [step, hs.1, hs.2, fetch_ok hw, hi, enterExecute, fetched]

/-- R123: at 4096 and above there is nothing to fetch. -/
theorem step_outside (hs : s.Running) (hpc : 4096 ≤ s.pc.toNat) :
    step s = .next (fetchFault (.addressOutOfBounds s.pc.toNat) s) := by
  simp [step, hs.1, hs.2, fetch_outside hpc]

/-- A step of a running machine takes a fault over the same base, or keeps the base and the record. -/
theorem step_running_cases (hs : s.Running) : ∃ t, step s = .next t ∧
    ((∃ p f r, t = faultEntry p f r ∧ r.base = s.base) ∨ ∃ w, SameRecord (fetched s w) t) := by
  rcases step_running hs with ⟨-, hstep⟩ | ⟨w, -, ⟨e, -, hstep⟩ | ⟨i, -, hstep⟩⟩
  · exact ⟨_, hstep, .inl ⟨_, _, _, rfl, rfl⟩⟩
  · cases e
    exact ⟨_, hstep, .inl ⟨_, _, _, rfl, rfl⟩⟩
  · obtain ⟨t, ht⟩ := exec_next i (fetched s w)
    refine ⟨t, hstep.trans ht, ?_⟩
    rcases exec_cases i ht with ⟨f, rfl⟩ | hrecord
    · exact .inl ⟨_, _, _, rfl, rfl⟩
    · exact .inr ⟨w, hrecord⟩

/-- A step that ends in a faulted machine came through fault entry. -/
theorem step_takes_fault (hs : s.Running) (h : step s = .next t) (ht : t.faulted = true) :
    ∃ p f r, t = faultEntry p f r := by
  obtain ⟨t', hstep, hcases⟩ := step_running_cases hs
  cases hstep.symm.trans h
  rcases hcases with ⟨p, f, r, hentry, -⟩ | ⟨w, hrecord⟩
  · exact ⟨p, f, r, hentry⟩
  · exact absurd (hs.1.symm.trans (hrecord.faulted.symm.trans ht)) (by decide)

theorem stepStatus_of_faulted (hs : s.Faulted) : stepStatus s = s.faultCode := if_pos hs

theorem stepStatus_of_halted (hs : s.Halted) : stepStatus s = 8 := by
  simp [stepStatus, hs.1, hs.2, statusProgramCompleted]

theorem stepStatus_of_running (hs : s.Running) (h : step s = .next t) :
    stepStatus s = if t.faulted then t.faultCode else 0 := by
  simp [stepStatus, hs.1, hs.2, h, statusOk]

theorem stepStatus_outside (hs : s.Running) (hpc : 4096 ≤ s.pc.toNat) : stepStatus s = 1 :=
  stepStatus_of_running hs (step_outside hs hpc)

theorem stepState_of_step (h : step s = .next t) : stepState s = t := by
  simp [stepState, h]

/-! ### Where a completed instruction leaves `pc` (40_step_cycle.md R125, R126) -/

theorem isZero_eq_decide (a : Word) : isZero a = decide (a = 0) := rfl

/-- The sign test reads the two's complement sign (00_scope.md R10). -/
theorem neg16_eq_decide (a : Word) : neg16 a = decide (a.toInt < 0) :=
  (BitVec.msb_eq_getLsbD_last a).symm.trans BitVec.msb_eq_toInt

/-- A completing body leaves `pc` at its transfer target, or where it was. -/
theorem Completes.pc_eq (h : Completes s i u) : u.pc = (transferTarget s i).getD s.pc := by
  cases h with
  | jzer | jnze | jneg | jpos =>
    simp [transferTarget, isZero_eq_decide, neg16_eq_decide, apply_ite (Option.getD · s.pc)]
  | retn _ hv => simp [transferTarget, hv]
  | _ => rfl

theorem Completes.pcb_eq (h : Completes s i u) : u.pcb = s.pcb := by
  cases h <;> rfl

/-- R126: ADVANCE compares where the body left `pc` with the address of the instruction. -/
theorem Completes.advance_pc (h : Completes s i u) (hs : s.InExecute) : (advance u).pc =
    if (transferTarget s i).getD s.pc = s.pc then s.pc + 1 else (transferTarget s i).getD s.pc := by
  obtain ⟨-, -, hpcb, -⟩ := hs
  rw [Machine.advance_pc, h.pc_eq, h.pcb_eq, hpcb]

/-! ### The bounded run (40_step_cycle.md R129) -/

/-- The two ways a step of a running machine is answered: OK without a fault, or the code of the fault it takes. -/
theorem stepStatus_cases (hs : s.Running) :
    (stepStatus s = 0 ∧ (stepState s).faulted = false) ∨
    (stepStatus s ≠ 0 ∧ (stepState s).faulted = true ∧ (stepState s).faultCode = stepStatus s) := by
  obtain ⟨t, hstep, -⟩ := step_running_cases hs
  rw [stepState_of_step hstep, stepStatus_of_running hs hstep]
  cases ht : t.faulted with
  | false => exact .inl ⟨rfl, rfl⟩
  | true =>
    refine .inr ⟨fun hzero => ?_, rfl, rfl⟩
    obtain ⟨p, f, r, rfl⟩ := step_takes_fault hs hstep ht
    have hcode : f.code = 0 := hzero
    have hpos := f.code_range.1
    simp [hcode] at hpos

theorem runLoop_succ (n : Nat) (s : State) : runLoop (n + 1) s =
    if stepStatus s ≠ 0 then (.returned (stepStatus s), stepState s)
    else if (stepState s).ended then (.returned 0, stepState s) else runLoop n (stepState s) := rfl

variable {n m : Nat} {c : BitVec 4}

theorem runLoop_succ_of_returned (h : runLoop n s = (.returned c, t)) : runLoop (n + 1) s = (.returned c, t) := by
  induction n generalizing s with
  | zero => cases h
  | succ n ih =>
    rw [runLoop_succ] at h ⊢
    split_ifs at h ⊢
    · exact h
    · exact h
    · exact ih h

theorem runLoop_mono (h : runLoop n s = (.returned c, t)) (hnm : n ≤ m) : runLoop m s = (.returned c, t) := by
  induction m, hnm using Nat.le_induction with
  | base => exact h
  | succ m _ ih => exact runLoop_succ_of_returned ih

/-- A run that went on until it returned ended at the halt flag or at a fault (R135): every step before the last left a
running machine. -/
theorem runLoop_returned (hs : s.Running) (h : runLoop n s = (.returned c, t)) :
    (c = 0 ∧ t.Halted) ∨ (c ≠ 0 ∧ t.faulted = true ∧ t.faultCode = c) := by
  induction n generalizing s with
  | zero => cases h
  | succ n ih =>
    rw [runLoop_succ] at h
    rcases stepStatus_cases hs with ⟨hok, hf⟩ | hfault
    · rw [if_neg (not_not.2 hok)] at h
      split_ifs at h with hended
      · cases h
        exact .inl ⟨rfl, hf, hended⟩
      · exact ih ⟨hf, Bool.eq_false_of_not_eq_true hended⟩ h
    · rw [if_pos hfault.1] at h
      cases h
      exact .inr hfault

theorem run_of_ended (n : Nat) (hs : s.ended = true) : run n s = (.returned 8, s) := if_pos hs

theorem run_of_not_ended (n : Nat) (hs : s.ended = false) : run n s = runLoop n s := by
  simp [run, hs]

end Sys2Proof.Machine

namespace Sys2Proof.Proofs

open Sys2Proof.Machine

/-- Settles O41: a step that takes no fault ends in ADVANCE, which reads `end`, and any other ends in fault entry. -/
theorem stepOutcomeFollowsTheFlags : Obligations.StepOutcomeFollowsTheFlags := by
  refine ⟨fun s t hs h => ?_, fun s hs => ⟨step_faulted hs, stepStatus_of_faulted hs, rfl, rfl⟩⟩
  rw [stepStatus_of_running hs h]
  cases ht : t.faulted with
  | false =>
    obtain ⟨w, i, u, -, -, -, rfl⟩ := step_completes hs h ht
    exact ⟨fun _ hended => ⟨if_neg (by simpa using hended), rfl⟩, fun _ hended => ⟨if_pos hended, rfl⟩, nofun⟩
  | true =>
    obtain ⟨p, f, r, rfl⟩ := step_takes_fault hs h ht
    exact ⟨nofun, nofun, fun _ => ⟨rfl, rfl⟩⟩

/-- Settles O43: a refused step changes nothing, and a running one keeps the record or ends in fault entry. -/
theorem everyStepAnswersAndKeepsTheBase : Obligations.EveryStepAnswersAndKeepsTheBase := by
  intro s
  by_cases hs : s.Running
  · obtain ⟨t, hstep, ⟨p, f, r, rfl, hbase⟩ | ⟨w, hrecord⟩⟩ := step_running_cases hs
    · exact ⟨_, hstep, hbase, nofun⟩
    · exact ⟨t, hstep, hrecord.base, fun _ =>
        ⟨hs.1, hrecord.faultCode, hrecord.faultPhase, hrecord.faultPc, hrecord.faultAddr⟩⟩
  · exact ⟨s, step_refused hs, rfl, fun hf => ⟨hf, rfl, rfl, rfl, rfl⟩⟩

/-- Settles O46: ADVANCE moves on exactly from the instruction's own address, and at 4096 the next fetch faults. -/
theorem everyInstructionAdvancesOrTransfers : Obligations.EveryInstructionAdvancesOrTransfers := by
  intro i s t hs h hf
  obtain ⟨u, hu, rfl⟩ := exec_completes h hf
  refine ⟨fun hnone => ?_, fun d hd hne => ?_, fun hself => ?_, fun hlast hnext => ?_⟩
  · rw [hu.advance_pc hs, hnone]
    exact if_pos rfl
  · rw [hu.advance_pc hs, hd]
    exact if_neg hne
  · rw [hu.advance_pc hs, hself]
    exact if_pos rfl
  · have hpc : (advance u).pc.toNat = 4096 := by
      rw [hnext, toNat_add_one_of_lt (by omega), hlast]
    exact ⟨hpc, fun hended => stepStatus_outside ⟨hf, hended⟩ hpc.ge⟩

/-- Settles O57: more steps change nothing once the run has returned, and the step that ended it halted or faulted. -/
theorem runReturnsAtTheEndOfTheProgram : Obligations.RunReturnsAtTheEndOfTheProgram := by
  refine ⟨fun n m s t c h hnm => ?_, fun n s t c hs h => ?_, fun n s => run_of_ended n⟩
  · cases hended : s.ended with
    | true => rwa [run_of_ended n hended, ← run_of_ended m hended] at h
    | false =>
      rw [run_of_not_ended n hended] at h
      rw [run_of_not_ended m hended, runLoop_mono h hnm]
  · rw [run_of_not_ended n hs.2] at h
    rcases runLoop_returned hs h with ⟨hok, hhalted⟩ | ⟨hcode, hfaulted, hlatched⟩
    · exact ⟨iff_of_true hok hhalted, fun hne => absurd hok hne⟩
    · refine ⟨iff_of_false hcode fun hhalted => ?_, fun _ => ⟨hfaulted, hlatched⟩⟩
      exact absurd (hfaulted.symm.trans hhalted.1) (by decide)

/-- Settles O37. -/
theorem stepRunsTheDecodedInstruction : Obligations.StepRunsTheDecodedInstruction :=
  fun _ _ _ hs hw hi => ⟨step_of_decode_ok hs hw hi, inExecute_fetched hs hw⟩

/-- Settles O38. -/
theorem haltedStepAnswersProgramCompleted : Obligations.HaltedStepAnswersProgramCompleted :=
  fun _ hs => ⟨step_ended hs.2, stepStatus_of_halted hs⟩

/-- Settles O40: `fault_addr` has 17 bits, so it holds any out-of-range `pc` whole. -/
theorem fetchReadsTheCellAtPcOrFaults : Obligations.FetchReadsTheCellAtPcOrFaults := by
  refine fun s hs => ⟨fun w => fetch_ok, memRead_inside s, fun hpc => ?_⟩
  refine ⟨_, step_outside hs hpc, rfl, rfl, rfl, rfl, ?_, rfl, stepStatus_outside hs hpc⟩
  exact Nat.mod_eq_of_lt (word_toNat_lt s.pc)

end Sys2Proof.Proofs

/-! The direct and immediate instructions (41_direct.md): the rules for running a body to its end, and what LODD, STOD,
LOCO, ADDD and SUBD do. -/

namespace Sys2Proof

/-- The word of a standard-form instruction is its row of R85 times 4096, plus its operand. -/
theorem encode_standard {i : Instr} {a : Operand12} {n : Nat} (hn : n < 15) (hop : i.opcodeByte.toNat = 16 * n)
    (harg : i.operand = a.setWidth 16) : encode i = BitVec.ofNat 16 (4096 * n + a.toNat) := by
  have hx : (a.setWidth 16).toNat = a.toNat := BitVec.toNat_setWidth_of_le (by decide)
  have hword := encodePair_standard_of_lt (op := i.opcodeByte) (x := a.setWidth 16) (by omega) (by omega)
  refine BitVec.eq_of_toNat_eq ?_
  rw [encode, harg, hword, hx, hop, BitVec.toNat_ofNat]
  omega

end Sys2Proof

namespace Sys2Proof.Machine

variable {s u : State} {body : Except Fault State} {a : Nat} {v : Word} {op : Word → Word → Word}

/-! ### The end of a body (40_step_cycle.md R125, 60_exceptions.md R210) -/

/-- A body that raises nothing and leaves `pc`, `pcb` and `end` alone is advanced to the next address. -/
theorem finish_sequential (hs : s.InExecute) (hbody : body = .ok u) (hpc : u.pc = s.pc) (hpcb : u.pcb = s.pcb)
    (hended : u.ended = s.ended) : finish s body = .next { u with pc := s.pc + 1, fsm := .ready } := by
  obtain ⟨-, hrun, hstart, -⟩ := hs
  simp [hbody, advance, hpc, hpcb, hended, hrun, hstart]

/-- Where a body raises a fault, the instruction takes it at its own address. -/
theorem finish_takesFault {f : Fault} {code : BitVec 4} {addr : Nat} (hs : s.InExecute) (hbody : body = .error f)
    (hcode : f.code = code) (haddr : f.addr = BitVec.ofNat 17 addr) : TakesFault s (finish s body) code addr := by
  obtain ⟨-, -, hstart, -⟩ := hs
  rw [hbody]
  exact ⟨_, rfl, rfl, hcode, rfl, hstart, haddr, rfl, rfl⟩

/-! ### The bodies that load, and that combine a cell with `ac` -/

/-- A body that sets the accumulator and moves on. -/
theorem finish_setAc (hs : s.InExecute) (hbody : body = .ok (setAc s v)) :
    finish s body = .next { s with ac := v, acv := true, pc := s.pc + 1, fsm := .ready } :=
  finish_sequential hs hbody rfl rfl rfl

theorem finish_combine (hs : s.InExecute) (hread : memRead s a = .ok v) (hv : s.acv = true) :
    finish s (memRead s a >>= fun m => requireAc s >>= fun c => pure (setAc s (op c m))) =
      .next { s with ac := op s.ac v, pc := s.pc + 1, fsm := .ready } := by
  rw [finish_setAc hs (combine_eq_ok.2 ⟨v, hread, hv, rfl⟩), ← hv]

theorem finish_combine_unset (hs : s.InExecute) (hread : memRead s a = .ok v) (hv : s.acv = false) :
    TakesFault s (finish s (memRead s a >>= fun m => requireAc s >>= fun c => pure (setAc s (op c m)))) 7 0 := by
  refine finish_takesFault (f := .uninitializedAccumulator s.pcb) hs ?_ rfl rfl
  rw [hread, ok_bind, requireAc_unset hv, error_bind]

/-- On a direct address the read always answers, so RequireAc alone decides how ADDD and SUBD end. -/
theorem finish_combine_direct {arg : Operand12} (hs : s.InExecute) :
    (s.acv = true → ∃ v, memRead s arg.toNat = .ok v ∧
      finish s (memRead s arg.toNat >>= fun m => requireAc s >>= fun c => pure (setAc s (op c m))) =
        .next { s with ac := op s.ac v, pc := s.pc + 1, fsm := .ready }) ∧
    (s.acv = false → TakesFault s
      (finish s (memRead s arg.toNat >>= fun m => requireAc s >>= fun c => pure (setAc s (op c m)))) 7 0) := by
  obtain ⟨v, hread⟩ := memRead_inside s arg.isLt
  exact ⟨fun hv => ⟨v, hread, finish_combine hs hread hv⟩, finish_combine_unset hs hread⟩

/-! ### The arithmetic unit as arithmetic on numbers (00_scope.md R10) -/

theorem add16_eq_ofNat (x y : Word) : add16 x y = BitVec.ofNat 16 ((x.toNat + y.toNat) % 65536) := by
  refine BitVec.eq_of_toNat_eq ?_
  rw [add16, BitVec.toNat_add, BitVec.toNat_ofNat, Nat.mod_mod]

theorem sub16_eq_ofInt (x y : Word) : sub16 x y = BitVec.ofInt 16 (((x.toNat : Int) - y.toNat) % 65536) := by
  refine BitVec.eq_of_toNat_eq ?_
  rw [sub16, BitVec.toNat_sub, BitVec.toNat_ofInt]
  omega

theorem immediate_eq_ofNat (arg : Operand12) : immediate arg = BitVec.ofNat 16 arg.toNat :=
  (BitVec.ofNat_toNat 16 arg).symm

/-! ### STOD (41_direct.md R151) -/

theorem exec_stod_valid {arg : Operand12} (hs : s.InExecute) (hv : s.acv = true) :
    exec (.stod arg) s =
      .next { s with overlay := s.overlay.write arg.toNat s.ac, pc := s.pc + 1, fsm := .ready } := by
  refine finish_sequential hs (u := { s with overlay := s.overlay.write arg.toNat s.ac }) ?_ rfl rfl rfl
  rw [requireAc_valid hv, ok_bind]
  exact memWrite_word s s.ac arg.isLt

theorem exec_stod_unset {arg : Operand12} (hs : s.InExecute) (hv : s.acv = false) :
    TakesFault s (exec (.stod arg) s) 7 0 := by
  refine finish_takesFault (f := .uninitializedAccumulator s.pcb) hs ?_ rfl rfl
  rw [requireAc_unset hv, error_bind]

end Sys2Proof.Machine

namespace Sys2Proof.Proofs

open Sys2Proof.Machine

/-- Settles O14: an operand of 12 bits is an address inside memory, so the read answers. -/
theorem loddLoadsTheDirectCell : Obligations.LoddLoadsTheDirectCell := by
  refine fun a s => ⟨encode_standard (n := 0) (by decide) rfl rfl, fun hs => ?_⟩
  obtain ⟨v, hread⟩ := memRead_inside s a.isLt
  exact ⟨v, hread, finish_setAc hs (load_eq_ok.2 ⟨v, hread, rfl⟩)⟩

/-- Settles O15. -/
theorem stodStoresToTheDirectCell : Obligations.StodStoresToTheDirectCell := by
  refine fun a s => ⟨encode_standard (n := 1) (by decide) rfl rfl, fun hs => ⟨fun hv => ?_, exec_stod_unset hs⟩⟩
  exact ⟨_, exec_stod_valid hs hv, rfl, memRead_written a.isLt rfl, fun b => memRead_other rfl rfl⟩

/-- Settles O16. -/
theorem locoLoadsTheConstant : Obligations.LocoLoadsTheConstant := by
  refine fun a s => ⟨encode_standard (n := 7) (by decide) rfl rfl, fun hs => ?_⟩
  rw [← immediate_eq_ofNat]
  exact finish_setAc hs rfl

/-- Settles O17, with `add16` as the sum modulo 65536. -/
theorem adddAddsTheDirectCell : Obligations.AdddAddsTheDirectCell := by
  refine fun a s => ⟨encode_standard (n := 2) (by decide) rfl rfl, fun hs => ?_⟩
  simp only [← add16_eq_ofNat]
  exact finish_combine_direct hs

/-- Settles O18, with `sub16` as the difference modulo 65536. -/
theorem subdSubtractsTheDirectCell : Obligations.SubdSubtractsTheDirectCell := by
  refine fun a s => ⟨encode_standard (n := 3) (by decide) rfl rfl, fun hs => ?_⟩
  simp only [← sub16_eq_ofInt]
  exact finish_combine_direct hs

end Sys2Proof.Proofs

/-! The jumps (42_jumps.md): how a transferring body ends, the conditional jump, and the halt at a self-jump. -/

namespace Sys2Proof.Machine

variable {s u : State} {body : Except Fault State} {arg : Operand12} {test : Word → Bool} {P : Prop} [Decidable P]

/-! ### The end of a body that may transfer control (40_step_cycle.md R125, R126) -/

/-- A body that raises nothing and leaves `pcb` and `end` alone is advanced from wherever it left `pc`. -/
theorem finish_transfer (hs : s.InExecute) (hbody : body = .ok u) (hpcb : u.pcb = s.pcb) (hended : u.ended = s.ended) :
    finish s body = .next { u with pc := if u.pc = s.pc then s.pc + 1 else u.pc, fsm := .ready } := by
  obtain ⟨-, hrun, hstart, -⟩ := hs
  simp [hbody, advance, hpcb, hended, hrun, hstart]

/-! ### The conditional jump (42_jumps.md R161 to R164) -/

/-- A taken jump to the instruction's own address falls through, as one not taken does. -/
theorem finish_jumpIf_valid (hs : s.InExecute) (htest : test s.ac = true ↔ P) (hv : s.acv = true) :
    finish s (jumpIf test arg s) = .next { s with
      pc := if P ∧ arg.toNat ≠ s.pc.toNat then target arg else s.pc + 1, fsm := .ready } := by
  rw [finish_transfer hs (jumpIf_eq_ok.2 ⟨hv, rfl⟩) rfl rfl]
  by_cases hP : P
  · simp [htest, hP, target_eq_iff]
  · simp [htest, hP]

theorem finish_jumpIf_unset (hs : s.InExecute) (hv : s.acv = false) :
    TakesFault s (finish s (jumpIf test arg s)) 7 0 := by
  refine finish_takesFault (f := .uninitializedAccumulator s.pcb) hs ?_ rfl rfl
  rw [jumpIf, requireAc_unset hv, error_bind]

/-- RequireAc alone decides whether a conditional jump completes. -/
theorem finish_jumpIf (hs : s.InExecute) (htest : test s.ac = true ↔ P) :
    (s.acv = true → finish s (jumpIf test arg s) = .next { s with
      pc := if P ∧ arg.toNat ≠ s.pc.toNat then target arg else s.pc + 1, fsm := .ready }) ∧
    (s.acv = false → TakesFault s (finish s (jumpIf test arg s)) 7 0) :=
  ⟨finish_jumpIf_valid hs htest, finish_jumpIf_unset hs⟩

/-! ### The two tests of the accumulator as comparisons of numbers (10_state.md R36) -/

theorem isZero_iff (x : Word) : isZero x = true ↔ x.toNat = 0 := by
  rw [isZero_eq_decide, decide_eq_true_iff, ← BitVec.toNat_inj]
  rfl

theorem neg16_iff (x : Word) : neg16 x = true ↔ x.toInt < 0 := by
  rw [neg16_eq_decide, decide_eq_true_iff]

theorem not_isZero_iff (x : Word) : (!isZero x) = true ↔ x.toNat ≠ 0 := by
  rw [Bool.not_eq_true', ← Bool.not_eq_true, isZero_iff]

theorem not_neg16_iff (x : Word) : (!neg16 x) = true ↔ 0 ≤ x.toInt := by
  rw [Bool.not_eq_true', ← Bool.not_eq_true, neg16_iff, not_lt]

/-! ### JUMP (42_jumps.md R160) -/

theorem exec_jump_other (hs : s.InExecute) (hother : arg.toNat ≠ s.pc.toNat) :
    exec (.jump arg) s = .next { s with pc := target arg, fsm := .ready } := by
  obtain ⟨-, hrun, hstart, -⟩ := hs
  have htarget : target arg ≠ s.pc := mt target_eq_iff.1 hother
  simp [exec, execJump, advance, htarget, hstart, hrun]

/-- ADVANCE reads the halt flag that the body has just set, so the machine is HALTED behind its self-jump. -/
theorem exec_jump_self (hs : s.InExecute) (hself : arg.toNat = s.pc.toNat) :
    exec (.jump arg) s = .next { s with ended := true, pc := s.pc + 1, fsm := .halted } := by
  obtain ⟨-, -, hstart, -⟩ := hs
  have htarget : target arg = s.pc := target_eq_iff.2 hself
  simp [exec, execJump, advance, htarget, hstart]

end Sys2Proof.Machine

namespace Sys2Proof.Proofs

open Sys2Proof.Machine

/-- Settles O19: a self-jump leaves a halted machine, which refuses the next step. -/
theorem jumpTransfersAndSelfJumpHalts : Obligations.JumpTransfersAndSelfJumpHalts := by
  refine fun a s => ⟨encode_standard (n := 6) (by decide) rfl rfl, fun hs => ⟨exec_jump_other hs, fun hself => ?_⟩⟩
  exact ⟨_, exec_jump_self hs hself, rfl, step_ended rfl, stepStatus_of_halted ⟨hs.1, rfl⟩⟩

/-- Settles O20. -/
theorem jzerJumpsOnZero : Obligations.JzerJumpsOnZero :=
  fun _ s => ⟨encode_standard (n := 5) (by decide) rfl rfl, fun hs => finish_jumpIf hs (isZero_iff s.ac)⟩

/-- Settles O21. -/
theorem jnzeJumpsOnNonzero : Obligations.JnzeJumpsOnNonzero :=
  fun _ s => ⟨encode_standard (n := 13) (by decide) rfl rfl, fun hs => finish_jumpIf hs (not_isZero_iff s.ac)⟩

/-- Settles O22, with the sign test as the two's complement sign. -/
theorem jnegJumpsOnNegative : Obligations.JnegJumpsOnNegative :=
  fun _ s => ⟨encode_standard (n := 12) (by decide) rfl rfl, fun hs => finish_jumpIf hs (neg16_iff s.ac)⟩

/-- Settles O23, with the sign test as the two's complement sign: zero is taken. -/
theorem jposJumpsOnZeroOrPositive : Obligations.JposJumpsOnZeroOrPositive :=
  fun _ s => ⟨encode_standard (n := 4) (by decide) rfl rfl, fun hs => finish_jumpIf hs (not_neg16_iff s.ac)⟩

end Sys2Proof.Proofs

/-! The frame-relative instructions (43_local.md): the fault of an address at or above 4096, and what LODL, STOL, ADDL and
SUBL do below it. -/

namespace Sys2Proof.Machine

variable {s : State} {arg : Operand12} {op : Word → Word → Word}

/-- A body whose first operation raises AddressOutOfBounds ends in that fault, whatever it would do next. -/
theorem finish_addressOutOfBounds {α : Type} {first : Except Fault α} {rest : α → Except Fault State} {a : Nat}
    (hs : s.InExecute) (hfirst : first = .error (.addressOutOfBounds a)) :
    TakesFault s (finish s (first >>= rest)) 1 a := by
  refine finish_takesFault (f := .addressOutOfBounds a) hs ?_ rfl rfl
  rw [hfirst, error_bind]

/-! ### ADDL and SUBL (43_local.md R173, R174) -/

/-- The body that ADDL and SUBL share: `ac` combined with the cell at `a`. -/
def combineAt (op : Word → Word → Word) (a : Nat) (s : State) : Except Fault State :=
  memRead s a >>= fun m => requireAc s >>= fun c => pure (setAc s (op c m))

theorem exec_addl (arg : Operand12) (s : State) :
    exec (.addl arg) s = finish s (combineAt add16 (frameAddr s arg) s) := rfl

theorem exec_subl (arg : Operand12) (s : State) :
    exec (.subl arg) s = finish s (combineAt sub16 (frameAddr s arg) s) := rfl

/-- The read checks its address before RequireAc is asked. -/
theorem finish_combineAt {a : Nat} (hs : s.InExecute) :
    (4096 ≤ a → TakesFault s (finish s (combineAt op a s)) 1 a) ∧
    (a < 4096 → s.acv = false → TakesFault s (finish s (combineAt op a s)) 7 0) ∧
    (a < 4096 → s.acv = true → ∃ v, memRead s a = .ok v ∧
      finish s (combineAt op a s) = .next { s with ac := op s.ac v, pc := s.pc + 1, fsm := .ready }) := by
  refine ⟨fun hout => finish_addressOutOfBounds hs (memRead_outside s hout), fun hin hv => ?_, fun hin hv => ?_⟩
  · obtain ⟨v, hread⟩ := memRead_inside s hin
    exact finish_combine_unset hs hread hv
  · obtain ⟨v, hread⟩ := memRead_inside s hin
    exact ⟨v, hread, finish_combine hs hread hv⟩

/-! ### STOL (43_local.md R172) -/

theorem exec_stol_outside (hs : s.InExecute) (hout : 4096 ≤ frameAddr s arg) :
    TakesFault s (exec (.stol arg) s) 1 (frameAddr s arg) :=
  finish_addressOutOfBounds hs (checkAddr_outside hout)

theorem exec_stol_unset (hs : s.InExecute) (hin : frameAddr s arg < 4096) (hv : s.acv = false) :
    TakesFault s (exec (.stol arg) s) 7 0 := by
  refine finish_takesFault (f := .uninitializedAccumulator s.pcb) hs ?_ rfl rfl
  rw [checkAddr_inside hin, ok_bind, requireAc_unset hv, error_bind]

theorem exec_stol_valid (hs : s.InExecute) (hin : frameAddr s arg < 4096) (hv : s.acv = true) :
    exec (.stol arg) s =
      .next { s with overlay := s.overlay.write (frameAddr s arg) s.ac, pc := s.pc + 1, fsm := .ready } := by
  refine finish_sequential hs (u := { s with overlay := s.overlay.write (frameAddr s arg) s.ac }) ?_ rfl rfl rfl
  rw [checkAddr_inside hin, ok_bind, requireAc_valid hv, ok_bind]
  exact memWrite_word s s.ac hin

end Sys2Proof.Machine

namespace Sys2Proof.Proofs

open Sys2Proof.Machine

/-- Settles O24. -/
theorem lodlLoadsTheLocalCell : Obligations.LodlLoadsTheLocalCell := by
  refine fun a s => ⟨encode_standard (n := 8) (by decide) rfl rfl, fun hs => ⟨fun hout => ?_, fun hin => ?_⟩⟩
  · exact finish_addressOutOfBounds hs (memRead_outside s hout)
  · obtain ⟨v, hread⟩ := memRead_inside s hin
    exact ⟨v, hread, finish_setAc hs (load_eq_ok.2 ⟨v, hread, rfl⟩)⟩

/-- Settles O25. -/
theorem stolStoresToTheLocalCell : Obligations.StolStoresToTheLocalCell := by
  refine fun a s => ⟨encode_standard (n := 9) (by decide) rfl rfl, fun hs =>
    ⟨exec_stol_outside hs, exec_stol_unset hs, fun hin hv => ?_⟩⟩
  exact ⟨_, exec_stol_valid hs hin hv, rfl, memRead_written hin rfl, fun b => memRead_other rfl rfl⟩

/-- Settles O26, with `add16` as the sum modulo 65536. -/
theorem addlAddsTheLocalCell : Obligations.AddlAddsTheLocalCell := by
  refine fun a s => ⟨encode_standard (n := 10) (by decide) rfl rfl, fun hs => ?_⟩
  simp only [exec_addl, ← add16_eq_ofNat]
  exact finish_combineAt hs

/-- Settles O27, with `sub16` as the difference modulo 65536. -/
theorem sublSubtractsTheLocalCell : Obligations.SublSubtractsTheLocalCell := by
  refine fun a s => ⟨encode_standard (n := 11) (by decide) rfl rfl, fun hs => ?_⟩
  simp only [exec_subl, ← sub16_eq_ofInt]
  exact finish_combineAt hs

end Sys2Proof.Proofs

/-! Subroutine call and return (44_call_return.md): what CALL and RETN do on each side of their checks, and the round
trip through the two. -/

namespace Sys2Proof

/-- The word of a stack-form instruction is its opcode byte times 256, plus its operand byte. -/
theorem encode_stack {i : Instr} {b : Byte} {n : Nat} (hn : n / 16 = 15) (hop : i.opcodeByte.toNat = n)
    (harg : i.operand = b.setWidth 16) : encode i = BitVec.ofNat 16 (256 * n + b.toNat) := by
  have hx : (b.setWidth 16).toNat = b.toNat := BitVec.toNat_setWidth_of_le (by decide)
  have hword := encodePair_stack (op := i.opcodeByte) (x := b.setWidth 16) (by omega)
  refine BitVec.eq_of_toNat_eq ?_
  rw [encode, harg, hword, hx, hop, BitVec.toNat_ofNat]
  omega

end Sys2Proof

namespace Sys2Proof.Machine

variable {s : State} {arg : Operand12} {x : Byte} {v : Word}

/-! ### CALL (44_call_return.md R180): the depth is checked first, then the push -/

/-- What CALL does before its write, when both its checks pass. -/
theorem depthInc_spDec_bind {α : Type} {rest : State → Except Fault α} (hd : s.depth.toNat < 99)
    (hlow : 2049 ≤ s.sp.toNat) : (depthInc s >>= fun s1 => spDec s1 1 >>= rest) =
      rest { s with depth := s.depth + 1, sp := s.sp - 1 } := by
  have hdec : spDec { s with depth := s.depth + 1 } 1 = .ok { s with depth := s.depth + 1, sp := s.sp - 1 } :=
    spDec_one_eq_ok.2 ⟨hlow, rfl⟩
  rw [depthInc_ok hd, ok_bind, hdec, ok_bind]

theorem exec_call_deep (hs : s.InExecute) (hdeep : 99 ≤ s.depth.toNat) : TakesFault s (exec (.call arg) s) 5 0 := by
  refine finish_takesFault (f := .infiniteRecursion s.pcb) hs ?_ rfl rfl
  rw [depthInc_deep hdeep, error_bind]

theorem exec_call_overflow (hs : s.InExecute) (hd : s.depth.toNat < 99) (hlow : s.sp.toNat < 2049) :
    TakesFault s (exec (.call arg) s) 3 0 := by
  refine finish_takesFault (f := .stackOverflow s.pcb) hs ?_ rfl rfl
  rw [depthInc_ok hd, ok_bind]
  exact bind_eq_error.2 (.inl (spDec_low hlow))

/-- The checked decrement has no upper bound, so from 4097 up it is the write that faults. -/
theorem exec_call_outside (hs : s.InExecute) (hd : s.depth.toNat < 99) (hhigh : 4097 ≤ s.sp.toNat) :
    TakesFault s (exec (.call arg) s) 1 (s.sp.toNat - 1) := by
  refine finish_takesFault (f := .addressOutOfBounds (s.sp.toNat - 1)) hs ?_ rfl rfl
  rw [depthInc_spDec_bind hd (le_trans (by decide) hhigh), toNat_sub_one (le_trans (by decide) hhigh),
    memWrite_outside _ _ (by omega), error_bind]

theorem exec_call_valid (hs : s.InExecute) (hd : s.depth.toNat < 99) (hlow : 2049 ≤ s.sp.toNat)
    (hhigh : s.sp.toNat ≤ 4096) : exec (.call arg) s = .next { s with
      depth := s.depth + 1, sp := s.sp - 1, overlay := s.overlay.write (s.sp.toNat - 1) (s.pc + 1),
      pc := if arg.toNat = s.pc.toNat then s.pc + 1 else target arg, fsm := .ready } := by
  simp only [← target_eq_iff]
  refine finish_transfer hs (u := { s with
    depth := s.depth + 1, sp := s.sp - 1, overlay := s.overlay.write (s.sp.toNat - 1) (s.pc + 1),
    pc := target arg }) ?_ rfl rfl
  obtain ⟨-, -, hstart, hpc⟩ := hs
  rw [memSize_eq] at hpc
  rw [depthInc_spDec_bind hd hlow, toNat_sub_one (le_trans (by decide) hlow), hstart,
    memWrite_inside _ (by omega) (by omega), ok_bind, ofNat_toNat_add_one, pure_eq_ok]

/-! ### RETN (44_call_return.md R181): the depth is checked first, then the pop -/

/-- R183: this is the only StackUnderflow of RETN, since its increment of `sp` follows a read inside memory. -/
theorem exec_retn_underflow (hs : s.InExecute) (hzero : s.depth.toNat = 0) :
    TakesFault s (exec (.retn x) s) 4 0 := by
  refine finish_takesFault (f := .stackUnderflow s.pcb) hs ?_ rfl rfl
  rw [depthDec_zero hzero, error_bind]

theorem exec_retn_outside (hs : s.InExecute) (hd : 1 ≤ s.depth.toNat) (hout : 4096 ≤ s.sp.toNat) :
    TakesFault s (exec (.retn x) s) 1 s.sp.toNat := by
  refine finish_takesFault (f := .addressOutOfBounds s.sp.toNat) hs ?_ rfl rfl
  rw [depthDec_ok hd, ok_bind, memRead_outside _ hout, error_bind]

theorem exec_retn_valid (hs : s.InExecute) (hd : 1 ≤ s.depth.toNat) (hread : memRead s s.sp.toNat = .ok v) :
    exec (.retn x) s = .next { s with
      depth := s.depth - 1, sp := s.sp + 1, pc := if v = s.pc then s.pc + 1 else v, fsm := .ready } := by
  refine finish_transfer hs (u := { s with depth := s.depth - 1, sp := s.sp + 1, pc := v }) ?_ rfl rfl
  have hpop : memRead { s with depth := s.depth - 1 } s.sp.toNat = .ok v := hread
  rw [depthDec_ok hd, ok_bind, hpop, ok_bind]
  exact spInc_one_eq_ok.2 ⟨memRead_ok_lt hread, rfl⟩

end Sys2Proof.Machine

namespace Sys2Proof.Proofs

open Sys2Proof.Machine

/-- Settles O55: the popped word is the pushed `pc + 1`, and RETN takes back the counts that CALL made. -/
theorem callThenReturnResumesAfterTheCall : Obligations.CallThenReturnResumesAfterTheCall := by
  intro a x s t u hs hother hdepth hlow hhigh hcall hu hsp hud hcell hupc
  have hd : s.depth.toNat < 99 := Nat.lt_succ_of_le hdepth
  cases (exec_call_valid hs hd hlow hhigh).symm.trans hcall
  have htop : (s.sp - 1).toNat = s.sp.toNat - 1 := toNat_sub_one (le_trans (by decide) hlow)
  have hpop : memRead u u.sp.toNat = .ok (s.pc + 1) :=
    hcell.trans (memRead_written (s := s) (by rw [htop]; omega) (by rw [htop]))
  have hdu : 1 ≤ u.depth.toNat := by
    rw [hud, toNat_add_one_of_lt (by omega)]
    exact Nat.le_add_left 1 _
  refine ⟨if_neg hother, _, exec_retn_valid hu hdu hpop, hu.1, if_neg hupc.symm, ?_, ?_⟩
  · exact hsp ▸ BitVec.sub_add_cancel s.sp 1
  · exact hud ▸ BitVec.add_sub_cancel s.depth 1

/-- Settles O28: `sp - 1` is inside memory exactly up to the empty stack. -/
theorem callPushesTheReturnAddress : Obligations.CallPushesTheReturnAddress := by
  refine fun a s => ⟨encode_standard (n := 14) (by decide) rfl rfl, fun hs =>
    ⟨exec_call_deep hs, fun hd hlow => ?_, fun hd hhigh => ?_, fun hd hlow hhigh => ?_⟩⟩
  · exact exec_call_overflow hs (Nat.lt_succ_of_le hd) (Nat.lt_succ_of_le hlow)
  · exact exec_call_outside hs (Nat.lt_succ_of_le hd) hhigh
  · exact ⟨_, exec_call_valid hs (Nat.lt_succ_of_le hd) hlow hhigh, rfl, memRead_written (by omega) rfl,
      fun b => memRead_other rfl rfl⟩

/-- Settles O29. -/
theorem retnPopsTheProgramCounter : Obligations.RetnPopsTheProgramCounter := by
  refine fun x s => ⟨encode_stack (n := 0xF8) (by decide) rfl rfl, fun hs =>
    ⟨exec_retn_underflow hs, exec_retn_outside hs, fun hd hin => ?_⟩⟩
  obtain ⟨v, hread⟩ := memRead_inside s hin
  exact ⟨v, hread, exec_retn_valid hs hd hread⟩

end Sys2Proof.Proofs

/-! The stack instructions (45_stack.md): what they do on each side of their checks, and the range that `sp` keeps while
no SWAP is executed. -/

namespace Sys2Proof.Machine

variable {s t u : State} {i : Instr} {b x : Byte} {v : Word}

/-! ### The checked decrement at the head of a body (10_state.md R31) -/

/-- A body that begins with the checked decrement overflows at the stack floor, whatever it would do next. -/
theorem finish_spDec_one_low {rest : State → Except Fault State} (hs : s.InExecute) (hlow : s.sp.toNat ≤ 2048) :
    TakesFault s (finish s (spDec s 1 >>= rest)) 3 0 := by
  refine finish_takesFault (f := .stackOverflow s.pcb) hs ?_ rfl rfl
  rw [spDec_low (Nat.lt_succ_of_le hlow), error_bind]

theorem spDec_one_bind {α : Type} {rest : State → Except Fault α} (hlow : 2049 ≤ s.sp.toNat) :
    (spDec s 1 >>= rest) = rest { s with sp := s.sp - 1 } := by
  rw [spDec_one_eq_ok.2 ⟨hlow, rfl⟩, ok_bind]

/-- The write that ends a push. -/
theorem memWrite_at_decremented_sp (v : Word) (hlow : 2049 ≤ s.sp.toNat) (hhigh : s.sp.toNat ≤ 4096) :
    memWrite { s with sp := s.sp - 1 } (s.sp - 1).toNat v.toNat =
      .ok { s with sp := s.sp - 1, overlay := s.overlay.write (s.sp.toNat - 1) v } := by
  rw [toNat_sub_one (le_trans (by decide) hlow)]
  exact memWrite_word _ v (by omega)

/-! ### PUSH (45_stack.md R190): the address is checked before the accumulator -/

theorem exec_push_outside (hs : s.InExecute) (hhigh : 4097 ≤ s.sp.toNat) :
    TakesFault s (exec (.push x) s) 1 (s.sp.toNat - 1) := by
  refine finish_takesFault (f := .addressOutOfBounds (s.sp.toNat - 1)) hs ?_ rfl rfl
  rw [spDec_one_bind (le_trans (by decide) hhigh), toNat_sub_one (le_trans (by decide) hhigh),
    checkAddr_outside (by omega), error_bind]

/-- What is left of PUSH once `sp - 1` has been found inside memory. -/
theorem exec_push_body (hlow : 2049 ≤ s.sp.toNat) (hhigh : s.sp.toNat ≤ 4096) :
    exec (.push x) s =
      finish s (requireAc s >>= fun a => memWrite { s with sp := s.sp - 1 } (s.sp - 1).toNat a.toNat) := by
  have htop : (s.sp - 1).toNat < 4096 := by
    rw [toNat_sub_one (le_trans (by decide) hlow)]
    omega
  refine congrArg (finish s) ?_
  rw [spDec_one_bind hlow, checkAddr_inside htop, ok_bind]
  rfl

theorem exec_push_unset (hs : s.InExecute) (hlow : 2049 ≤ s.sp.toNat) (hhigh : s.sp.toNat ≤ 4096)
    (hv : s.acv = false) : TakesFault s (exec (.push x) s) 7 0 := by
  rw [exec_push_body hlow hhigh]
  refine finish_takesFault (f := .uninitializedAccumulator s.pcb) hs ?_ rfl rfl
  rw [requireAc_unset hv, error_bind]

theorem exec_push_valid (hs : s.InExecute) (hlow : 2049 ≤ s.sp.toNat) (hhigh : s.sp.toNat ≤ 4096)
    (hv : s.acv = true) : exec (.push x) s = .next { s with
      sp := s.sp - 1, overlay := s.overlay.write (s.sp.toNat - 1) s.ac, pc := s.pc + 1, fsm := .ready } := by
  rw [exec_push_body hlow hhigh, requireAc_valid hv, ok_bind]
  exact finish_sequential hs (memWrite_at_decremented_sp s.ac hlow hhigh) rfl rfl rfl

/-! ### POP (45_stack.md R191) -/

theorem exec_pop_valid (hs : s.InExecute) (hread : memRead s s.sp.toNat = .ok v) :
    exec (.pop x) s = .next { s with ac := v, acv := true, sp := s.sp + 1, pc := s.pc + 1, fsm := .ready } := by
  refine finish_sequential hs (u := { setAc s v with sp := s.sp + 1 }) ?_ rfl rfl rfl
  rw [hread, ok_bind]
  exact spInc_one_eq_ok.2 ⟨memRead_ok_lt hread, rfl⟩

/-! ### PSHI (45_stack.md R192) -/

/-- What is left of PSHI once the decrement has passed: the low cell always reads. -/
theorem exec_pshi_body (hlow : 2049 ≤ s.sp.toNat) (hread : memRead s b.toNat = .ok v) :
    exec (.pshi b) s = finish s (memWrite { s with sp := s.sp - 1 } (s.sp - 1).toNat v.toNat) := by
  have hlowRead : memRead { s with sp := s.sp - 1 } (lowAddr b) = .ok v := hread
  refine congrArg (finish s) ?_
  rw [spDec_one_bind hlow, hlowRead, ok_bind]

/-- The checked decrement has no upper bound, so from 4097 up it is the write that faults. -/
theorem exec_pshi_outside (hs : s.InExecute) (hhigh : 4097 ≤ s.sp.toNat) :
    TakesFault s (exec (.pshi b) s) 1 (s.sp.toNat - 1) := by
  obtain ⟨v, hread⟩ := memRead_inside s (lowAddr_lt b)
  rw [exec_pshi_body (le_trans (by decide) hhigh) hread, toNat_sub_one (le_trans (by decide) hhigh)]
  exact finish_takesFault hs (memWrite_outside _ _ (by omega)) rfl rfl

theorem exec_pshi_valid (hs : s.InExecute) (hlow : 2049 ≤ s.sp.toNat) (hhigh : s.sp.toNat ≤ 4096)
    (hread : memRead s b.toNat = .ok v) : exec (.pshi b) s = .next { s with
      sp := s.sp - 1, overlay := s.overlay.write (s.sp.toNat - 1) v, pc := s.pc + 1, fsm := .ready } := by
  rw [exec_pshi_body hlow hread]
  exact finish_sequential hs (memWrite_at_decremented_sp v hlow hhigh) rfl rfl rfl

/-! ### POPI (45_stack.md R193) -/

theorem exec_popi_valid (hs : s.InExecute) (hread : memRead s s.sp.toNat = .ok v) :
    exec (.popi b) s = .next { s with
      sp := s.sp + 1, overlay := s.overlay.write b.toNat v, pc := s.pc + 1, fsm := .ready } := by
  refine finish_sequential hs (u := { s with sp := s.sp + 1, overlay := s.overlay.write b.toNat v }) ?_ rfl rfl rfl
  rw [hread, ok_bind, memWrite_word s v (lowAddr_lt b), ok_bind]
  exact spInc_one_eq_ok.2 ⟨memRead_ok_lt hread, rfl⟩

/-! ### SWAP (45_stack.md R194) -/

theorem exec_swap_unset (hs : s.InExecute) (hv : s.acv = false) : TakesFault s (exec (.swap x) s) 7 0 := by
  refine finish_takesFault (f := .uninitializedAccumulator s.pcb) hs ?_ rfl rfl
  rw [requireAc_unset hv, error_bind]

/-- With a valid accumulator the exchange completes in every state, also where no body starts. -/
theorem exec_swap_exchanges (hv : s.acv = true) :
    exec (.swap x) s = .next (advance (setAc { s with sp := s.ac } s.sp)) := by
  rw [exec, execSwap, requireAc_valid hv, ok_bind, pure_eq_ok, finish_ok]

theorem exec_swap_valid (hs : s.InExecute) (hv : s.acv = true) : exec (.swap x) s =
    .next { s with sp := s.ac, ac := s.sp, pc := s.pc + 1, fsm := .ready } := by
  have hbody := finish_sequential (u := setAc { s with sp := s.ac } s.sp) hs rfl rfl rfl rfl
  rw [finish_ok] at hbody
  rw [exec_swap_exchanges hv, hbody, setAc, ← hv]

/-! ### The range of `sp` (45_stack.md R198) -/

/-- Every completing body but SWAP's moves `sp` by a checked operation, or not at all. -/
theorem Completes.spInRange (h : Completes s i u) (hswap : ∀ y, i ≠ .swap y) (hs : SpInRange s.sp) :
    SpInRange u.sp := by
  obtain ⟨hfloor, hempty⟩ := hs
  simp only [SpInRange, stackFloor_eq, stackEmpty_eq] at hfloor hempty ⊢
  cases h with
  | call _ hlow | pshi hlow | push hlow =>
    rw [toNat_sub_one (le_trans (by decide) hlow)]
    omega
  | popi hread | pop hread | retn _ hread =>
    have hlt := memRead_ok_lt hread
    rw [toNat_add_one_of_lt (by omega)]
    omega
  | insp hsum =>
    rw [BitVec.toNat_ofNat]
    omega
  | desp hdiff =>
    rw [BitVec.toNat_ofNat]
    omega
  | swap => exact absurd rfl (hswap _)
  | _ => exact ⟨hfloor, hempty⟩

theorem stepState_of_faulted (hs : s.faulted = true) : stepState s = s := stepState_of_step (step_faulted hs)

/-- A step that executes no SWAP and leaves no fault keeps the range. -/
theorem stepState_spInRange (hs : SpInRange s.sp) (hswap : ¬ ExecutesSwap s) (hf : (stepState s).faulted = false) :
    SpInRange (stepState s).sp := by
  by_cases hrun : s.Running
  · obtain ⟨t, hstep, -⟩ := step_running_cases hrun
    rw [stepState_of_step hstep] at hf ⊢
    obtain ⟨w, i, u, hw, hi, hu, rfl⟩ := step_completes hrun hstep hf
    refine hu.spInRange ?_ hs
    rintro y rfl
    exact hswap ⟨hrun, w, y, hw, hi⟩
  · rwa [stepState_of_step (step_refused hrun)]

/-- A push that completes has passed both bounds of its cell. -/
theorem Completes.push_storeAddress (h : Completes s i u)
    (hpush : (∃ x, i = .push x) ∨ (∃ b, i = .pshi b) ∨ (∃ a, i = .call a)) :
    ∃ c, storeAddress s i = some c ∧ 2048 ≤ c ∧ c ≤ 4095 := by
  cases h with
  | push hlow hhigh | pshi hlow hhigh | call _ hlow hhigh =>
    exact ⟨_, rfl, Nat.le_sub_one_of_lt hlow, Nat.le_of_lt_succ hhigh⟩
  | _ => simp at hpush

end Sys2Proof.Machine

namespace Sys2Proof.Proofs

open Sys2Proof.Machine

/-- Settles O50, by induction on the number of steps: a machine that has not faulted had not faulted one step before. -/
theorem spStaysInRangeWithoutSwap : Obligations.SpStaysInRangeWithoutSwap := by
  refine ⟨fun n s hs hswap hf => ?_, fun i s t _ _ h hf hpush => ?_⟩
  · induction n with
    | zero => exact hs
    | succ n ih =>
      rw [Function.iterate_succ_apply'] at hf ⊢
      have hbefore : (stepState^[n] s).faulted = false := by
        refine Bool.eq_false_of_not_eq_true fun hfaulted => ?_
        rw [stepState_of_faulted hfaulted, hfaulted] at hf
        cases hf
      exact stepState_spInRange (ih (fun k hk => hswap k (Nat.lt_succ_of_lt hk)) hbefore) (hswap n n.lt_succ_self) hf
  · obtain ⟨u, hu, -⟩ := exec_completes h hf
    exact hu.push_storeAddress hpush

/-- Settles O30: the POP reads the pushed word and counts `sp` back up. -/
theorem pushStoresTheAccumulator : Obligations.PushStoresTheAccumulator := by
  refine fun x s => ⟨encode_stack (n := 0xF4) (by decide) rfl rfl, fun hs =>
    ⟨finish_spDec_one_low hs, exec_push_outside hs, exec_push_unset hs, fun hlow hhigh hv => ?_⟩⟩
  refine ⟨_, exec_push_valid hs hlow hhigh hv, rfl, memRead_written (by omega) rfl, fun b => memRead_other rfl rfl,
    fun y u hu hsp hcell => ?_⟩
  have htop : (s.sp - 1).toNat = s.sp.toNat - 1 := toNat_sub_one (le_trans (by decide) hlow)
  have hpop : memRead u u.sp.toNat = .ok s.ac :=
    hcell.trans (memRead_written (s := s) (by rw [htop]; omega) (by rw [htop]))
  exact ⟨_, exec_pop_valid hu hpop, hu.1, rfl, rfl, hsp ▸ BitVec.sub_add_cancel s.sp 1⟩

/-- Settles O31. -/
theorem popLoadsTheAccumulator : Obligations.PopLoadsTheAccumulator := by
  refine fun x s => ⟨encode_stack (n := 0xF6) (by decide) rfl rfl, fun hs => ⟨fun hout => ?_, fun hin => ?_⟩⟩
  · exact finish_addressOutOfBounds hs (memRead_outside s hout)
  · obtain ⟨v, hread⟩ := memRead_inside s hin
    exact ⟨v, hread, exec_pop_valid hs hread⟩

/-- Settles O32. -/
theorem pshiPushesALowCell : Obligations.PshiPushesALowCell := by
  refine fun b s => ⟨encode_stack (n := 0xF0) (by decide) rfl rfl, fun hs =>
    ⟨finish_spDec_one_low hs, exec_pshi_outside hs, fun hlow hhigh => ?_⟩⟩
  obtain ⟨v, hread⟩ := memRead_inside s (lowAddr_lt b)
  exact ⟨v, _, hread, exec_pshi_valid hs hlow hhigh hread, rfl, memRead_written (by omega) rfl,
    fun c => memRead_other rfl rfl⟩

/-- Settles O33. -/
theorem popiPopsIntoALowCell : Obligations.PopiPopsIntoALowCell := by
  refine fun b s => ⟨encode_stack (n := 0xF2) (by decide) rfl rfl, fun hs => ⟨fun hout => ?_, fun hin => ?_⟩⟩
  · exact finish_addressOutOfBounds hs (memRead_outside s hout)
  · obtain ⟨v, hread⟩ := memRead_inside s hin
    exact ⟨v, _, hread, exec_popi_valid hs hread, rfl, memRead_written (lowAddr_lt b) rfl,
      fun c => memRead_other rfl rfl⟩

/-- Settles O34: the second SWAP finds the accumulator that the first one set. -/
theorem swapExchangesAcAndSp : Obligations.SwapExchangesAcAndSp := by
  refine fun x s => ⟨encode_stack (n := 0xFA) (by decide) rfl rfl, fun hs =>
    ⟨exec_swap_unset hs, fun hv => ⟨exec_swap_valid hs hv, fun y u hu => ?_⟩⟩⟩
  cases (exec_swap_exchanges hv).symm.trans hu
  exact ⟨_, exec_swap_exchanges rfl, rfl, rfl⟩

/-- Settles O35. -/
theorem inspIncrementsSp : Obligations.InspIncrementsSp :=
  fun _ _ => ⟨encode_stack (n := 0xFC) (by decide) rfl rfl, fun hs =>
    ⟨fun hhigh => finish_takesFault hs (spInc_high hhigh) rfl rfl,
      fun hsum => finish_sequential hs (spInc_ok hsum) rfl rfl rfl⟩⟩

/-- Settles O36. -/
theorem despDecrementsSp : Obligations.DespDecrementsSp :=
  fun _ _ => ⟨encode_stack (n := 0xFE) (by decide) rfl rfl, fun hs =>
    ⟨fun hlow => finish_takesFault hs (spDec_low hlow) rfl rfl,
      fun hdiff => finish_sequential hs (spDec_ok hdiff) rfl rfl rfl⟩⟩

end Sys2Proof.Proofs

/-! Fault entry (60_exceptions.md R210 to R213): which step raises which fault, and what the record then says. -/

namespace Sys2Proof.Machine

variable {s t : State} {f : Fault}

theorem Fault.code_eq_one_iff : f.code = 1 ↔ ∃ a, f = .addressOutOfBounds a := by
  cases f <;> simp [Fault.code]

/-- A step that ends in a faulted machine entered FAULT with the address of its instruction in `pcb`, and in phase FETCH
exactly when there was nothing to fetch (60_exceptions.md R210). -/
theorem step_faults (hs : s.Running) (h : step s = .next t) (ht : t.faulted = true) :
    ∃ p f r, t = faultEntry p f r ∧ r.pcb = s.pc ∧ (p = .fetch ↔ 4096 ≤ s.pc.toNat) := by
  rcases step_running hs with ⟨hpc, hstep⟩ | ⟨w, hw, hdecoded⟩
  · cases hstep.symm.trans h
    exact ⟨_, _, _, rfl, rfl, iff_of_true rfl hpc⟩
  · have hexecute : Phase.execute = .fetch ↔ 4096 ≤ s.pc.toNat := iff_of_false nofun (Nat.not_le.2 (memRead_ok_lt hw))
    rcases hdecoded with ⟨e, -, hstep⟩ | ⟨i, -, hstep⟩
    · cases hstep.symm.trans h
      cases e
      exact ⟨_, _, _, rfl, rfl, hexecute⟩
    · obtain ⟨f, rfl, -⟩ := exec_faults (inExecute_fetched hs hw) (hstep.symm.trans h) ht
      exact ⟨_, f, _, rfl, rfl, hexecute⟩

end Sys2Proof.Machine

namespace Sys2Proof.Proofs

open Sys2Proof.Machine

/-- Settles O42: `pcb` holds the address of the instruction from the fetch on, and the status of a step is the code it
latches. -/
theorem faultEntryWritesTheRecord : Obligations.FaultEntryWritesTheRecord := by
  refine ⟨fun p f s => ⟨rfl, rfl, rfl, rfl, fun a ha => ha ▸ rfl, fun hother => ?_, rfl, rfl⟩, fun s t hs h ht => ?_⟩
  · exact Fault.addr_of_code_ne_one fun hcode => (Fault.code_eq_one_iff.1 hcode).elim hother
  · have hstatus : stepStatus s = t.faultCode := (stepStatus_of_running hs h).trans (if_pos ht)
    obtain ⟨p, f, r, rfl, hpcb, hphase⟩ := step_faults hs h ht
    exact ⟨hphase, hpcb, hstatus⟩

/-- Settles O52: an instruction that faults enters FAULT from its own body with a fault of its row of the table. -/
theorem faultsComeFromTheirInstructions : Obligations.FaultsComeFromTheirInstructions := by
  intro i s t hs h ht
  obtain ⟨f, rfl, hcode, haddr⟩ := exec_faults hs h ht
  obtain ⟨-, -, hpcb, -⟩ := hs
  exact ⟨hcode, rfl, hpcb, Fault.addr_of_code_ne_one, haddr⟩

/-- Settles O39. -/
theorem faultedStepIsRefusedUntilReset : Obligations.FaultedStepIsRefusedUntilReset :=
  fun _ hs => ⟨step_faulted hs, stepStatus_of_faulted hs, ⟨rfl, rfl, rfl, rfl, rfl⟩, rfl⟩

end Sys2Proof.Proofs

/-! Reset, launch and self-modified code (70_reset_and_hazards.md R230 to R237). -/

namespace Sys2Proof.Machine

theorem launch_recordClear (image : List Word) : (State.launch image).RecordClear := ⟨rfl, rfl, rfl, rfl, rfl⟩

/-- R230, R231: at launch memory is untouched, nothing has been called, the record is clear and the machine is READY. -/
theorem launch_inv {image : List Word} (h : imageFits image = true) : (State.launch image).Inv :=
  ⟨Memory.wf_nil, h, fun _ => by simp, .inl (launch_recordClear image), rfl⟩

end Sys2Proof.Machine

namespace Sys2Proof.Proofs

open Sys2Proof.Machine

/-- Settles O54: the write leaves `v` in the cell at `pc`, and that is the cell the next fetch reads. -/
theorem storeIsSeenByTheNextFetch : Obligations.StoreIsSeenByTheNextFetch := by
  intro s t a v hwrite hpc hrun
  obtain ⟨ha, ht⟩ := memWrite_word_eq_ok.1 hwrite
  have hread : memRead t t.pc.toNat = .ok v := hpc ▸ memRead_written ha (congrArg State.overlay ht)
  exact ⟨⟨_, fetch_ok hread, rfl⟩, fun i => step_of_decode_ok hrun hread⟩

/-- Settles O45: the reset state is the launch state over the empty image, which fits. -/
theorem launchMeetsTheBoundaryConditions : Obligations.LaunchMeetsTheBoundaryConditions :=
  ⟨fun _ => launch_inv, launch_inv (image := []) rfl⟩

/-- Settles O56: the registers by their reset values, and each cell reads its base word through the empty overlay. -/
theorem resetRestoresEverythingButTheBase : Obligations.ResetRestoresEverythingButTheBase :=
  fun s => ⟨applyReset_pc s, applyReset_sp s, applyReset_acv s, applyReset_depth s, applyReset_ended s,
    applyReset_overlay s, applyReset_base s, launch_recordClear s.base, applyReset_fsm s,
    fun _ ha => memRead_base (s := applyReset s) ha rfl⟩

end Sys2Proof.Proofs
